-- ==== Sys2Proof/Word.lean ====
section
/-!
DEFINITION. The words the block handles: a byte of the register window (20_memory.md R55) and the
16-bit `counter` and `reload` (00_scope.md R7). All values are unsigned (00_scope.md R11); bit 0 is
the least significant bit.
-/

namespace Sys2Proof

/-- One byte of the register window; also the 8-bit command word (20_memory.md R55, 30_encoding.md R70). -/
abbrev Byte := BitVec 8

/-- A 16-bit `counter` or `reload` (10_state.md R22, R23). -/
abbrev HalfWord := BitVec 16

end Sys2Proof
end

