-- ==== Sys2Proof/Config.lean ====
section
/-!
DEFINITION. What an implementation fixes: the open parameters of 00_scope.md R8 (IRQ_BASE, IRQ_WIDTH,
TIMER_BASE, WIDE_ORDER) and the decoder's choice outside the register window (20_memory.md R53).
Each is a constant WITHOUT a body: no proof can use a value of it, so what is proved holds for every
value the spec admits (92_eei_decisions.md D2, D3, D4). The constraints of R8 hold by the types.
-/

namespace Sys2Proof

namespace Config

/-- How many bits IRQ_WIDTH has beyond 16 (00_scope.md R8: IRQ_WIDTH >= 16). OPEN, log 4. -/
opaque irqWidthBeyond16 : Nat

/-- IRQ_WIDTH, the width of the interrupt-request word (00_scope.md R8, 60_exceptions.md R162). -/
def irqWidth : Nat := irqWidthBeyond16 + 16

/-- IRQ_BASE with its bound IRQ_BASE + 3 < IRQ_WIDTH (00_scope.md R8) as its type. OPEN, log 4. -/
opaque irqBaseFin : Fin (irqWidthBeyond16 + 12 + 1)

/-- IRQ_BASE, the bit index of timer 0's request bit (00_scope.md R8, 60_exceptions.md R162). -/
def irqBase : Nat := irqBaseFin.val

/-- TIMER_BASE, the guest address of timer 0's offset 0 (00_scope.md R8, 20_memory.md R52). OPEN, log 5. -/
opaque timerBase : Nat

/-- WIDE_ORDER, the order in which the external decoder applies the bytes of one guest access wider
than a byte: the `j`-th byte operation is that of byte `wideOrder write addr width j` of the access
(00_scope.md R8, 20_memory.md R55). It may depend on whether the access writes, on its address and on
its width. OPEN, log 5. -/
opaque wideOrder (write : Bool) (addr width : Nat) : Equiv.Perm (Fin width)

/-- Which byte of the window, if any, the external decoder takes a guest address outside the 16 bytes
for: "how large that range is in the guest's address space is the decoder's choice" (20_memory.md
R53, 92_eei_decisions.md D3). OPEN, log 6. -/
opaque decoderElsewhere : Nat → Option (Fin 4 × Fin 4)

end Config

/-- The interrupt-request word `IF`, IRQ_WIDTH bits (10_state.md R32). -/
abbrev IrqWord := BitVec Config.irqWidth

end Sys2Proof
end

