-- ==== Sys2Proof/Syntax.lean ====
section
/-!
DEFINITION. The block's operations as terms: one constructor per row of spec/opcode_table.json
(30_encoding.md R81), the command word with its payload that encodes one (R70), and the
pseudo-operations of R83. The operands have the wider types of the source's own interface (an index
that may be out of range, a count that may be negative), so that the caller-contract violations of
60_exceptions.md R160 can be spelled; WellFormed.lean picks out the operations the block performs.
-/

namespace Sys2Proof

/-- The ten operation forms of 30_encoding.md R81. -/
inductive Instr where
  /-- `rd.cntl tI`: READ the low byte of `counter` (40_bus_interface.md R101). -/
  | rdCntl (id : Nat)
  /-- `rd.cnth tI`: READ the high byte of `counter` (R102). -/
  | rdCnth (id : Nat)
  /-- `rd.ctrl tI`: READ the control byte (R103). -/
  | rdCtrl (id : Nat)
  /-- `rd.unused tI`: READ offset 3 (R104). -/
  | rdUnused (id : Nat)
  /-- `wr.rldl tI, value`: WRITE the low byte of `reload` (R105). -/
  | wrRldl (id : Nat) (value : Byte)
  /-- `wr.rldh tI, value`: WRITE the high byte of `reload` (R106). -/
  | wrRldh (id : Nat) (value : Byte)
  /-- `wr.ctrl tI, value`: WRITE the control byte (R107). -/
  | wrCtrl (id : Nat) (value : Byte)
  /-- `wr.unused tI, value`: WRITE offset 3 (R108). -/
  | wrUnused (id : Nat) (value : Byte)
  /-- `adv n`: ADVANCE by `n` elapsed base cycles (41_advance_engine.md R120). -/
  | adv (n : Int)
  /-- `reset`: RESET the block (70_reset_and_hazards.md R180). -/
  | reset
  deriving DecidableEq, Repr

/-- What comes with a command word (30_encoding.md R70, R74): nothing, a WRITE's byte, or an
ADVANCE's count, a natural number with no upper bound. -/
inductive Payload where
  | none
  | byte (value : Byte)
  | count (n : Nat)
  deriving DecidableEq, Repr

/-- One presented command: the 8-bit command word CW and its payload (30_encoding.md R70). -/
structure Command where
  word : Byte
  payload : Payload
  deriving DecidableEq, Repr

/-- `CW[7:6]`, which selects the operation (30_encoding.md R70, R71). -/
inductive Kind where
  | read
  | write
  | advance
  | reset
  deriving DecidableEq, Repr

/-- Why a command is no operation of the block. -/
inductive DecodeError where
  /-- A reserved command word (30_encoding.md R72). -/
  | reserved (word : Byte)
  /-- The payload is not the one the word's kind takes (30_encoding.md R71). -/
  | payload (word : Byte)
  deriving DecidableEq, Repr

/-- The pseudo-operations of 30_encoding.md R83. -/
inductive Pseudo where
  /-- `wr.rld tI, 0xHHLL`. -/
  | wrRld (id : Nat) (value : HalfWord)
  /-- `rd.cnt tI`. -/
  | rdCnt (id : Nat)
  /-- `start tI, 0xHHLL, 0xCC`. -/
  | start (id : Nat) (value : HalfWord) (ctrl : Byte)
  /-- `stop tI`. -/
  | stop (id : Nat)
  deriving DecidableEq, Repr

end Sys2Proof
end

