-- ==== Sys2Proof/WellFormed.lean ====
section
/-!
DEFINITION. Which terms are operations the block performs: a timer index in 0..3 (40_bus_interface.md
R100) and a count that is not negative (41_advance_engine.md R120). Every byte value is legal
(60_exceptions.md R161), so nothing else is checked.
-/

namespace Sys2Proof

/-- The precondition of R100 on a timer index: `id` in 0..3. -/
def validId (id : Nat) : Bool := decide (id < 4)

/-- The caller's contract for each operation (40_bus_interface.md R100, 60_exceptions.md R160). -/
def Instr.wellFormed (i : Instr) : Bool :=
  match i with
  | .rdCntl id => validId id
  | .rdCnth id => validId id
  | .rdCtrl id => validId id
  | .rdUnused id => validId id
  | .wrRldl id _ => validId id
  | .wrRldh id _ => validId id
  | .wrCtrl id _ => validId id
  | .wrUnused id _ => validId id
  | .adv n => decide (0 ≤ n)
  | .reset => true

end Sys2Proof
end

