-- ==== Sys2Proof/Decode.lean ====
section
/-!
DEFINITION. The command word of 30_encoding.md R70 to R73: its fields, the total decoder, the encoder,
the ten rows of the opcode map (R81), the host's numbered words, and the expansion of the
pseudo-operations (R83) into core operations.
-/

namespace Sys2Proof

/-! ### Fields of the command word (R70, R71) -/

/-- `kind = CW[7:6]`: 00 READ, 01 WRITE, 10 ADVANCE, 11 RESET (R70). -/
def kindOf (w : Byte) : Kind :=
  match (w.extractLsb' 6 2).toNat with
  | 0 => .read
  | 1 => .write
  | 2 => .advance
  | _ => .reset

/-- `id = CW[3:2]` (R71). -/
def idOf (w : Byte) : Nat := (w.extractLsb' 2 2).toNat

/-- `offset = CW[1:0]` (R71). -/
def offsetOf (w : Byte) : Nat := (w.extractLsb' 0 2).toNat

/-- R72: reserved is every word with `CW[5:4] != 00`, and every ADVANCE or RESET word with
`CW[3:0] != 0000`. -/
def isReserved (w : Byte) : Bool :=
  w.extractLsb' 4 2 != 0#2 || (w.getLsbD 7 && w.extractLsb' 0 4 != 0#4)

/-! ### Register offsets -/

/-- The READ of `(id, offset)`; "any other offset returns 0", that is, every `offset >= 3` has the
meaning of offset 3 (R73, 40_bus_interface.md R101 to R104). -/
def Instr.ofRead (id offset : Nat) : Instr :=
  match offset with
  | 0 => .rdCntl id
  | 1 => .rdCnth id
  | 2 => .rdCtrl id
  | _ => .rdUnused id

/-- The WRITE of `value` to `(id, offset)`; "Writing to any other offset is a no-op", that is, every
`offset >= 3` has the meaning of offset 3 (R73, 40_bus_interface.md R105 to R108). -/
def Instr.ofWrite (id offset : Nat) (value : Byte) : Instr :=
  match offset with
  | 0 => .wrRldl id value
  | 1 => .wrRldh id value
  | 2 => .wrCtrl id value
  | _ => .wrUnused id value

/-! ### Decoder -/

/-- Decode one command (R71): total, with reserved words (R72) and payloads of the wrong kind rejected
by name. -/
def decode (c : Command) : Except DecodeError Instr :=
  if isReserved c.word then .error (.reserved c.word)
  else
    match kindOf c.word, c.payload with
    | .read, .none => .ok (.ofRead (idOf c.word) (offsetOf c.word))
    | .write, .byte v => .ok (.ofWrite (idOf c.word) (offsetOf c.word) v)
    | .advance, .count n => .ok (.adv n)
    | .reset, .none => .ok .reset
    | _, _ => .error (.payload c.word)

/-! ### Encoder -/

/-- The two kind bits `CW[7:6]` (R70). -/
def Kind.bits (k : Kind) : BitVec 2 :=
  match k with
  | .read => 0b00
  | .write => 0b01
  | .advance => 0b10
  | .reset => 0b11

/-- A command word from its fields: kind, two reserved zero bits, `id`, `offset` (R70). -/
def commandWord (k : Kind) (id offset : Nat) : Byte :=
  k.bits ++ (0b00 : BitVec 2) ++ BitVec.ofNat 2 id ++ BitVec.ofNat 2 offset

/-- The command of a well-formed operation, from the table of R81. -/
def encode (i : Instr) : Command :=
  match i with
  | .rdCntl id => ⟨commandWord .read id 0, .none⟩
  | .rdCnth id => ⟨commandWord .read id 1, .none⟩
  | .rdCtrl id => ⟨commandWord .read id 2, .none⟩
  | .rdUnused id => ⟨commandWord .read id 3, .none⟩
  | .wrRldl id v => ⟨commandWord .write id 0, .byte v⟩
  | .wrRldh id v => ⟨commandWord .write id 1, .byte v⟩
  | .wrCtrl id v => ⟨commandWord .write id 2, .byte v⟩
  | .wrUnused id v => ⟨commandWord .write id 3, .byte v⟩
  | .adv n => ⟨commandWord .advance 0 0, .count n.toNat⟩
  | .reset => ⟨commandWord .reset 0 0, .none⟩

/-! ### The opcode map -/

/-- One row of the opcode map of R81: "A word matches a row when (CW & mask) == match". -/
structure OpcodeRow where
  mnemonic : String
  pattern : Byte
  mask : Byte
  deriving DecidableEq, Repr

/-- `(CW & mask) == match` (R81). -/
def OpcodeRow.covers (r : OpcodeRow) (w : Byte) : Bool := (w &&& r.mask) == r.pattern

/-- The ten rows of R81. -/
def opcodeTable : List OpcodeRow :=
  [⟨"rd.cntl", 0x00, 0xF3⟩, ⟨"rd.cnth", 0x01, 0xF3⟩, ⟨"rd.ctrl", 0x02, 0xF3⟩,
   ⟨"rd.unused", 0x03, 0xF3⟩, ⟨"wr.rldl", 0x40, 0xF3⟩, ⟨"wr.rldh", 0x41, 0xF3⟩,
   ⟨"wr.ctrl", 0x42, 0xF3⟩, ⟨"wr.unused", 0x43, 0xF3⟩, ⟨"adv", 0x80, 0xFF⟩,
   ⟨"reset", 0xC0, 0xFF⟩]

/-- The mnemonic of each form (R81). -/
def Instr.mnemonic (i : Instr) : String :=
  match i with
  | .rdCntl _ => "rd.cntl"
  | .rdCnth _ => "rd.cnth"
  | .rdCtrl _ => "rd.ctrl"
  | .rdUnused _ => "rd.unused"
  | .wrRldl _ _ => "wr.rldl"
  | .wrRldh _ _ => "wr.rldh"
  | .wrCtrl _ _ => "wr.ctrl"
  | .wrUnused _ _ => "wr.unused"
  | .adv _ => "adv"
  | .reset => "reset"

/-! ### The host's numbered words -/

/-- The payload of kind `k` read from the bits above the command word: a WRITE's byte, an ADVANCE's
count, or nothing. -/
def payloadFromBits (k : Kind) (rest : Nat) : Payload :=
  match k with
  | .read => .none
  | .write => .byte (BitVec.ofNat 8 rest)
  | .advance => .count rest
  | .reset => .none

/-- The command whose command word is bits 7:0 of `w` and whose payload is the bits above, every bit
from `nbits` on being 0. -/
def tableCommand (nbits w : Nat) : Command :=
  let bits := w % 2 ^ nbits
  let cw : Byte := BitVec.ofNat 8 bits
  ⟨cw, payloadFromBits (kindOf cw) (bits / 256)⟩

/-- The operation the decoder reads from an opcode-table word; none where it refuses. -/
def decodeTableWord (nbits w : Nat) : Option Instr :=
  match decode (tableCommand nbits w) with
  | .ok i => some i
  | .error _ => none

/-! ### Pseudo-operations -/

/-- The expansions of R83, in the order the table gives. -/
def Pseudo.expand (p : Pseudo) : List Instr :=
  match p with
  | .wrRld id v => [.wrRldl id (v.extractLsb' 0 8), .wrRldh id (v.extractLsb' 8 8)]
  | .rdCnt id => [.rdCntl id, .rdCnth id]
  | .start id v cc =>
    [.wrRldl id (v.extractLsb' 0 8), .wrRldh id (v.extractLsb' 8 8), .wrCtrl id cc]
  | .stop id => [.wrCtrl id 0x00]

/-! ### Assembler notation -/

/-- The notation of 30_encoding.md R82 for one operation, numbers in decimal for a count and in
`0x` hexadecimal for a byte. -/
def Instr.asm (i : Instr) : String :=
  let hex (v : Byte) : String :=
    "0x" ++ String.ofList [Nat.digitChar (v.toNat / 16) |>.toUpper, Nat.digitChar (v.toNat % 16) |>.toUpper]
  match i with
  | .rdCntl id => "rd.cntl t" ++ toString id
  | .rdCnth id => "rd.cnth t" ++ toString id
  | .rdCtrl id => "rd.ctrl t" ++ toString id
  | .rdUnused id => "rd.unused t" ++ toString id
  | .wrRldl id v => "wr.rldl t" ++ toString id ++ ", " ++ hex v
  | .wrRldh id v => "wr.rldh t" ++ toString id ++ ", " ++ hex v
  | .wrCtrl id v => "wr.ctrl t" ++ toString id ++ ", " ++ hex v
  | .wrUnused id v => "wr.unused t" ++ toString id ++ ", " ++ hex v
  | .adv n => "adv " ++ toString n
  | .reset => "reset"

end Sys2Proof
end

