-- ==== Sys2Proof/Machine/State.lean ====
section
/-!
DEFINITION. The state of the block as plain data (10_state.md), its outputs (20_memory.md R63), the
environment's moves (R66) as a list the step reads, the fault and the refusals, and the state at
power-up (10_state.md R36, 70_reset_and_hazards.md R182).
-/

namespace Sys2Proof.Machine

/-- One timer record (10_state.md R20 to R31). -/
@[ext]
structure Timer where
  /-- Fixed identity, equal to the timer's index; the rules name a timer by its index, which is the
  same number in every reachable state (R21). -/
  id : Fin 4
  /-- The live tick count (R22). -/
  counter : HalfWord
  /-- The value loaded at an enable edge and at a wrap (R23). -/
  reload : HalfWord
  /-- Control bits 1:0, the divisor selector (R25). -/
  frequency : BitVec 2
  /-- Control bit 2 (R25). -/
  cascade : Bool
  /-- Control bit 6 (R25). -/
  interrupt : Bool
  /-- Control bit 7 (R25). -/
  enable : Bool
  /-- Derived from `frequency` by the SHIFT table (R27). -/
  shift : Nat
  /-- Derived from `frequency` by the MASK table (R27). -/
  mask : Nat
  /-- The leftover-cycle accumulator (R28, R29). -/
  cycles : Nat
  /-- The hidden overflow flag (R30, R31). -/
  overflow : Bool
  deriving DecidableEq, Repr

/-- The block's outputs, as the most recent operation left them (20_memory.md R63). A READ answers a
byte, an ADVANCE gives `irqSet` and `wraps`; any other operation gives none of them. Log 2. -/
@[ext]
structure Ports where
  /-- `bus_rdata`: the byte a READ returned. -/
  busRdata : Option Byte
  /-- `irq_set`: the request bits an ADVANCE asserted. -/
  irqSet : IrqWord
  /-- `wraps`: the per-timer overflow counts of an ADVANCE (10_state.md R33). -/
  wraps : Option (Vector Nat 4)
  deriving DecidableEq, Repr

/-- What the environment may do between two operations (20_memory.md R63 to R66). Log 1. -/
inductive Input where
  /-- A command word with its payload is presented (30_encoding.md R70). -/
  | command (c : Command)
  /-- The source's `read(id, offset)` (20_memory.md R65, 30_encoding.md R73). -/
  | read (id offset : Nat)
  /-- The source's `write(id, offset, value)` (20_memory.md R65, 30_encoding.md R73). -/
  | write (id offset : Nat) (value : Byte)
  /-- The source's `advance(elapsed_cycles)` (20_memory.md R64). -/
  | advance (n : Int)
  /-- The source's `reset()` (20_memory.md R65). -/
  | reset
  /-- A guest read of `width` bytes from guest address `addr`, split by the decoder (R52, R55). -/
  | guestRead (addr width : Nat)
  /-- A guest write of bytes to guest addresses `addr`, `addr + 1`, ..., split by the decoder
  (R52, R55). -/
  | guestWrite (addr : Nat) (bytes : List Byte)
  /-- The interrupt controller clears the bits of `clear` in `IF`, then sets those of `set`
  (10_state.md R32, 20_memory.md R66). -/
  | interruptController (clear set : IrqWord)
  deriving DecidableEq, Repr

/-- The state: the timer array, the interrupt-request word, the outputs, and the moves to come. -/
@[ext]
structure State where
  /-- `T[0]` to `T[3]` (10_state.md R20). -/
  timers : Vector Timer 4
  /-- `IF`, the interrupt-request word: environment state that the block ORs into (R32). -/
  IF : IrqWord
  /-- The outputs of the most recent operation (20_memory.md R63). -/
  ports : Ports
  /-- The model's own field: the environment's moves not yet made, oldest first. Log 1. -/
  inputs : List Input
  deriving DecidableEq, Repr

/-- The recorded value of the caller-contract fault (60_exceptions.md R160). -/
inductive BadArgument where
  /-- An `id` outside 0..3 of a READ or WRITE. -/
  | timerId (id : Nat)
  /-- A negative elapsed-cycle count of an ADVANCE. -/
  | cycleCount (n : Int)
  deriving DecidableEq, Repr

/-- Why the machine stops. -/
inductive Fault where
  /-- InvalidArgument, the block's only fault (60_exceptions.md R160, R161). Raised by every READ and
  WRITE form for an `id` outside 0..3 and by `adv` for a negative count, through
  `raiseInvalidArgument`, with no state change. Safe: the run stops (92_eei_decisions.md D15). -/
  | invalidArgument (info : BadArgument)
  deriving DecidableEq, Repr

/-- Why the model has no meaning for what was presented. -/
inductive Refusal where
  /-- An instruction without a meaning yet; raised by an arm of `exec` only, and at present by none.
  Safe. -/
  | notModelled (mnemonic : String)
  /-- A reserved command word, "not an operation of the block, and a model refuses it"
  (30_encoding.md R72). Raised by `presentCommand`. Safe. -/
  | reservedCommand (word : Byte)
  /-- A command word presented with a payload its kind does not take, which the format of
  30_encoding.md R70 and R71 cannot spell. Raised by `presentCommand`. Safe. Log 11. -/
  | payloadMismatch (word : Byte)
  deriving DecidableEq, Repr

/-- The record of timer `i` after RESET and at power-up (10_state.md R36, 70_reset_and_hazards.md
R180). -/
def Timer.initial (i : Fin 4) : Timer where
  id := i
  counter := 0x0000
  reload := 0x0000
  frequency := 0
  cascade := false
  interrupt := false
  enable := false
  shift := 0
  mask := 0
  cycles := 0
  overflow := false

/-- The whole array after RESET and at power-up (10_state.md R20, R36). -/
def initialTimers : Vector Timer 4 :=
  #v[Timer.initial 0, Timer.initial 1, Timer.initial 2, Timer.initial 3]

/-- The state at power-up (10_state.md R36, 70_reset_and_hazards.md R182). `IF` is not the block's and
no rule gives it a first value: 0 is the model's choice (log 3); so are the outputs before the first
operation (log 2) and the empty list of moves (log 1). -/
def State.reset : State where
  timers := initialTimers
  IF := 0
  ports := { busRdata := none, irqSet := 0, wraps := none }
  inputs := []

end Sys2Proof.Machine
end

