-- ==== Sys2Proof/Machine/Flags.lean ====
section
/-!
DEFINITION. The `overflow` flag (10_state.md R30, R31), the block's only condition: when a step wraps a
counter. All quantities are natural numbers without a bound (00_scope.md R9, 92_eei_decisions.md D5).
-/

namespace Sys2Proof.Machine

/-- Base cycles a free-running step has to count: the leftover and the elapsed ones
(41_advance_engine.md R124). -/
def available (t : Timer) (n : Nat) : Nat := t.cycles + n

/-- Ticks of the timer's divisor in them (R125). -/
def ticksOf (t : Timer) (n : Nat) : Nat := available t n >>> t.shift

/-- `span`: ticks from the current counter to its next wrap, 1 to 0x10000 (R126). -/
def spanToWrap (t : Timer) : Nat := 0x10000 - t.counter.toNat

/-- `period`: ticks from one wrap to the next, 1 to 0x10000 (R127 b). -/
def wrapPeriod (t : Timer) : Nat := 0x10000 - t.reload.toNat

/-- The flag a free-running step leaves: false from its start (R124), true if the step wraps, that is,
unless `ticks < span` (R126, R127). -/
def freeOverflow (t : Timer) (n : Nat) : Bool := !decide (ticksOf t n < spanToWrap t)

/-- The flag a cascade step that found its predecessor's flag true leaves: true exactly when the
counter was 0xFFFF (42_cascade.md R143). -/
def cascadeOverflow (t : Timer) : Bool := t.counter == 0xFFFF

end Sys2Proof.Machine
end

