-- ==== Sys2Proof/Machine/Ops.lean ====
section
/-!
DEFINITION. The named operations every meaning is written with: reading and writing a timer record, the
outputs, raising the block's fault, and the overflow-interrupt arbiter. The block takes no trap and
returns from none (60_exceptions.md R166): its one exceptional outcome is InvalidArgument, raised here
and nowhere else.
-/

namespace Sys2Proof.Machine

/-! ### The timer array -/

/-- `T[i]` (00_scope.md R12). -/
def timerAt (timers : Vector Timer 4) (i : Fin 4) : Timer := timers[i.val]

/-- The array with `T[i]` replaced. -/
def setTimerAt (timers : Vector Timer 4) (i : Fin 4) (t : Timer) : Vector Timer 4 :=
  timers.set i.val t

/-- `T[i]` of the state. -/
def State.timer (s : State) (i : Fin 4) : Timer := timerAt s.timers i

/-- The state with `T[i]` replaced. -/
def State.setTimer (s : State) (i : Fin 4) (t : Timer) : State :=
  { s with timers := setTimerAt s.timers i t }

/-! ### Outputs -/

/-- The outputs of an operation that gives none. -/
def quietPorts : Ports := { busRdata := none, irqSet := 0, wraps := none }

/-- The state after a READ that answers `b`: "State written: none", only the output (40_bus_interface.md
R101 to R104). -/
def State.answer (s : State) (b : Byte) : State :=
  { s with ports := { quietPorts with busRdata := some b } }

/-- The state with no output given. -/
def State.quiet (s : State) : State := { s with ports := quietPorts }

/-! ### The fault -/

/-- `raise InvalidArgument(info)`: the operation changes nothing and the run stops
(60_exceptions.md R160, 92_eei_decisions.md D15). -/
def raiseInvalidArgument (info : BadArgument) : Host.Outcome State Fault Refusal :=
  .fault (.invalidArgument info)

/-- The precondition of every READ and WRITE, `if id > 3: raise InvalidArgument(id)`
(40_bus_interface.md R100), before `k` runs on the timer's index. -/
def withTimer (id : Nat) (k : Fin 4 → Host.Outcome State Fault Refusal) :
    Host.Outcome State Fault Refusal :=
  if h : id < 4 then k ⟨id, h⟩ else raiseInvalidArgument (.timerId id)

/-! ### The overflow-interrupt arbiter and the pass of one ADVANCE -/

/-- `1 << (IRQ_BASE + i)`, timer `i`'s request bit (60_exceptions.md R162). -/
def requestBit (i : Fin 4) : IrqWord := BitVec.twoPow Config.irqWidth (Config.irqBase + i.val)

/-- What one ADVANCE works on while its pass runs; no other operation observes it
(20_memory.md R59). -/
@[ext]
structure Pass where
  timers : Vector Timer 4
  IF : IrqWord
  irqSet : IrqWord
  wraps : Vector Nat 4
  deriving DecidableEq, Repr

/-- `T[i]` as the pass has it. -/
def Pass.timer (p : Pass) (i : Fin 4) : Timer := timerAt p.timers i

/-- `T[i] <- t` within the pass. -/
def Pass.setTimer (p : Pass) (i : Fin 4) (t : Timer) : Pass :=
  { p with timers := setTimerAt p.timers i t }

/-- `wraps[i] <- w` within the pass. -/
def Pass.setWraps (p : Pass) (i : Fin 4) (w : Nat) : Pass :=
  { p with wraps := p.wraps.set i.val w }

/-- `RaiseIRQ(i): IF <- IF | (1 << (IRQ_BASE + i))` (60_exceptions.md R162), seen on `irq_set` too
(20_memory.md R63). -/
def Pass.raiseIRQ (p : Pass) (i : Fin 4) : Pass :=
  { p with IF := p.IF ||| requestBit i, irqSet := p.irqSet ||| requestBit i }

/-- `if wrapped and T[i].interrupt: RaiseIRQ(i)` (60_exceptions.md R163). -/
def Pass.raiseIRQIf (p : Pass) (i : Fin 4) (c : Bool) : Pass := if c then p.raiseIRQ i else p

end Sys2Proof.Machine
end

