-- ==== Sys2Proof/Machine/Advance.lean ====
section
/-!
DEFINITION. ADVANCE: the pass sequencer and the free-running step (41_advance_engine.md R120 to R129) and
the cascade-propagation sequencer (42_cascade.md R140 to R147).
-/

namespace Sys2Proof.Machine

/-! ### The free-running step -/

/-- `FreeStep` on one timer record: the record after `n` base cycles and the number of its wraps
(41_advance_engine.md R124 to R129). -/
def freeRun (t : Timer) (n : Nat) : Timer × Nat :=
  let ticks := ticksOf t n
  let span := spanToWrap t
  let cycles := available t n &&& t.mask
  if ticks < span then
    ({ t with
        counter := BitVec.ofNat 16 (t.counter.toNat + ticks)
        overflow := freeOverflow t n
        cycles := cycles }, 0)
  else
    let rest := ticks - span
    let period := wrapPeriod t
    let extra := if period ≤ rest then rest / period else 0
    let rest' := if period ≤ rest then rest % period else rest
    ({ t with
        counter := BitVec.ofNat 16 (t.reload.toNat + rest')
        overflow := freeOverflow t n
        cycles := cycles }, 1 + extra)

/-- `FreeStep(i, n)` within the pass (R124 to R129): the record, the request bit "if T[i].overflow and
T[i].interrupt", and `wraps[i]`. -/
def freeStep (i : Fin 4) (n : Nat) (p : Pass) : Pass :=
  let r := freeRun (p.timer i) n
  ((p.setTimer i r.1).raiseIRQIf i (r.1.overflow && r.1.interrupt)).setWraps i r.2

/-! ### The cascade step -/

/-- The record of a cascade timer that found its predecessor's flag true: one tick, which wraps to
`reload` at 0xFFFF (42_cascade.md R143). -/
def cascadeTick (t : Timer) : Timer :=
  { t with
    counter := if t.counter != 0xFFFF then t.counter + 1 else t.reload
    overflow := cascadeOverflow t }

/-- `CascadeStep(i)` within the pass (42_cascade.md R140 to R143). Timer 0 has no predecessor (R141).
A flag is read as it stands, stale or not (R146, 92_eei_decisions.md D7). -/
def cascadeStep (i : Fin 4) (p : Pass) : Pass :=
  if i.val = 0 then p
  else
    let j : Fin 4 := ⟨i.val - 1, by omega⟩
    let pred := p.timer j
    if pred.overflow then
      let t := cascadeTick (p.timer i)
      (((p.setTimer i t).raiseIRQIf i (t.overflow && t.interrupt)).setTimer j
        { pred with overflow := false }).setWraps i (if t.overflow then 1 else 0)
    else p

/-! ### The pass sequencer -/

/-- One visit: a disabled timer is skipped, a cascade timer takes the cascade step, any other enabled
timer the free-running step (41_advance_engine.md R120, R122, R123). -/
def visit (n : Nat) (p : Pass) (i : Fin 4) : Pass :=
  if !(p.timer i).enable then p
  else if (p.timer i).cascade then cascadeStep i p
  else freeStep i n p

/-- The walk over timers 0, 1, 2, 3, each once, in that order (R121). -/
def passOf (n : Nat) (p : Pass) : Pass :=
  ([0, 1, 2, 3] : List (Fin 4)).foldl (visit n) p

/-- The pass before its first visit: `wraps[i] <- 0` for every timer (R120). -/
def startPass (s : State) : Pass where
  timers := s.timers
  IF := s.IF
  irqSet := 0
  wraps := Vector.replicate 4 0

/-- The state after the pass, with the outputs `irq_set` and `wraps` (R120, 20_memory.md R63). -/
def endPass (s : State) (p : Pass) : State :=
  { s with
    timers := p.timers
    IF := p.IF
    ports := { busRdata := none, irqSet := p.irqSet, wraps := some p.wraps } }

/-- R120: ADVANCE by `n` base cycles; a negative count is the caller-contract violation of
60_exceptions.md R160. -/
def execAdv (n : Int) (s : State) : Host.Outcome State Fault Refusal :=
  if n < 0 then raiseInvalidArgument (.cycleCount n)
  else .next (endPass s (passOf n.toNat (startPass s)))

end Sys2Proof.Machine
end

