-- ==== Sys2Proof/Machine/Operands.lean ====
section
/-!
DEFINITION. Operand assembly (30_encoding.md R75 to R78): the two bytes of a 16-bit register, the reload
byte merge, the control byte in both directions, and the divisor table.
-/

namespace Sys2Proof.Machine

/-! ### The bytes of `counter` and `reload` (20_memory.md R54: the low byte at offset 0) -/

/-- `v[7:0]`. -/
def lowByte (v : HalfWord) : Byte := v.extractLsb' 0 8

/-- `v[15:8]`. -/
def highByte (v : HalfWord) : Byte := v.extractLsb' 8 8

/-- `reload <- (reload[15:8] : value[7:0])` (30_encoding.md R77, offset 0). -/
def mergeLow (v : HalfWord) (value : Byte) : HalfWord := highByte v ++ value

/-- `reload <- (value[7:0] : reload[7:0])` (30_encoding.md R77, offset 1). -/
def mergeHigh (v : HalfWord) (value : Byte) : HalfWord := value ++ lowByte v

/-! ### The divisor table (30_encoding.md R78) -/

/-- `SHIFT = [0, 6, 8, 10]`. -/
def shiftOf (frequency : BitVec 2) : Nat :=
  match frequency.toNat with
  | 0 => 0
  | 1 => 6
  | 2 => 8
  | _ => 10

/-- `MASK = [0, 0x3F, 0xFF, 0x3FF]`. -/
def maskOf (frequency : BitVec 2) : Nat :=
  match frequency.toNat with
  | 0 => 0
  | 1 => 0x3F
  | 2 => 0xFF
  | _ => 0x3FF

/-! ### The control byte -/

/-- The control byte a READ of offset 2 returns (30_encoding.md R76). -/
def controlByte (t : Timer) : Byte :=
  (if t.enable then 0x80 else 0) ||| (if t.interrupt then 0x40 else 0) |||
    (if t.cascade then 0x04 else 0) ||| t.frequency.setWidth 8

/-- The control fields a WRITE of offset 2 decodes, bits 5:3 discarded (30_encoding.md R75, R79), with
`shift` and `mask` recomputed from the new `frequency` (R78, 10_state.md R27). -/
def decodeControl (t : Timer) (value : Byte) : Timer :=
  let frequency : BitVec 2 := value.extractLsb' 0 2
  { t with
    frequency := frequency
    cascade := value.getLsbD 2
    interrupt := value.getLsbD 6
    enable := value.getLsbD 7
    shift := shiftOf frequency
    mask := maskOf frequency }

/-- The control WRITE of one timer record: the fields, then `counter <- reload` on the enable edge,
that is, if `enable` changes from false to true (40_bus_interface.md R107). -/
def writeControl (t : Timer) (value : Byte) : Timer :=
  let wasEnabled := t.enable
  let t' := decodeControl t value
  if !wasEnabled && t'.enable then { t' with counter := t'.reload } else t'

end Sys2Proof.Machine
end

