-- ==== Sys2Proof/Machine/Bus.lean ====
section
/-!
DEFINITION. The bus interface: the four READ forms and the four WRITE forms (40_bus_interface.md R101 to
R108), one meaning each.
-/

namespace Sys2Proof.Machine

/-- R101: `bus_rdata <- T[id].counter[7:0]`. -/
def execRdCntl (id : Nat) (s : State) : Host.Outcome State Fault Refusal :=
  withTimer id fun i => .next (s.answer (lowByte (s.timer i).counter))

/-- R102: `bus_rdata <- T[id].counter[15:8]`. -/
def execRdCnth (id : Nat) (s : State) : Host.Outcome State Fault Refusal :=
  withTimer id fun i => .next (s.answer (highByte (s.timer i).counter))

/-- R103: `bus_rdata` is the packed control byte. -/
def execRdCtrl (id : Nat) (s : State) : Host.Outcome State Fault Refusal :=
  withTimer id fun i => .next (s.answer (controlByte (s.timer i)))

/-- R104: `bus_rdata <- 0x00`. -/
def execRdUnused (id : Nat) (s : State) : Host.Outcome State Fault Refusal :=
  withTimer id fun _ => .next (s.answer 0x00)

/-- R105: `T[id].reload <- (T[id].reload[15:8] : value[7:0])`. -/
def execWrRldl (id : Nat) (value : Byte) (s : State) : Host.Outcome State Fault Refusal :=
  withTimer id fun i =>
    let t := s.timer i
    .next (s.setTimer i { t with reload := mergeLow t.reload value }).quiet

/-- R106: `T[id].reload <- (value[7:0] : T[id].reload[7:0])`. -/
def execWrRldh (id : Nat) (value : Byte) (s : State) : Host.Outcome State Fault Refusal :=
  withTimer id fun i =>
    let t := s.timer i
    .next (s.setTimer i { t with reload := mergeHigh t.reload value }).quiet

/-- R107: the control fields, `shift` and `mask`, and `counter <- reload` on the enable edge; `cycles`
and `overflow` are kept (92_eei_decisions.md D6, D7). -/
def execWrCtrl (id : Nat) (value : Byte) (s : State) : Host.Outcome State Fault Refusal :=
  withTimer id fun i => .next (s.setTimer i (writeControl (s.timer i) value)).quiet

/-- R108: no state changes, whatever the value. -/
def execWrUnused (id : Nat) (_value : Byte) (s : State) : Host.Outcome State Fault Refusal :=
  withTimer id fun _ => .next s.quiet

end Sys2Proof.Machine
end

