-- ==== Sys2Proof/Machine/Reset.lean ====
section
/-!
DEFINITION. RESET (70_reset_and_hazards.md R180, R181).
-/

namespace Sys2Proof.Machine

/-- R180: every timer takes its reset record; `IF` is not written (R181, 92_eei_decisions.md D10). -/
def execReset (s : State) : Host.Outcome State Fault Refusal :=
  .next { s with timers := initialTimers }.quiet

end Sys2Proof.Machine
end

