-- ==== Sys2Proof/Machine/Dispatch.lean ====
section
/-!
DEFINITION. One arm per operation form of spec/opcode_table.json.
-/

namespace Sys2Proof.Machine

def exec (i : Instr) (s : State) : Host.Outcome State Fault Refusal :=
  match i with
  | .rdCntl id => Sys2Proof.Machine.execRdCntl id s
  | .rdCnth id => Sys2Proof.Machine.execRdCnth id s
  | .rdCtrl id => Sys2Proof.Machine.execRdCtrl id s
  | .rdUnused id => Sys2Proof.Machine.execRdUnused id s
  | .wrRldl id value => Sys2Proof.Machine.execWrRldl id value s
  | .wrRldh id value => Sys2Proof.Machine.execWrRldh id value s
  | .wrCtrl id value => Sys2Proof.Machine.execWrCtrl id value s
  | .wrUnused id value => Sys2Proof.Machine.execWrUnused id value s
  | .adv n => Sys2Proof.Machine.execAdv n s
  | .reset => Sys2Proof.Machine.execReset s

end Sys2Proof.Machine
end

