-- ==== Sys2Proof/Machine/Inputs.lean ====
section
/-!
DEFINITION. What each move of the environment does (20_memory.md R63 to R66): a presented command is
decoded and run, the source's calls run their operation, a guest access is split into byte operations
(R55), and the interrupt controller changes `IF` (R32).
-/

namespace Sys2Proof.Machine

/-- The window byte `(id, offset)` that the decoder takes a guest address for: `rel = 4 * id + offset`
from TIMER_BASE on (R51, R52); outside the 16 bytes it is the decoder's choice (R53, log 6). -/
def routeGuest (addr : Nat) : Option (Nat × Nat) :=
  if Config.timerBase ≤ addr ∧ addr < Config.timerBase + 16 then
    some ((addr - Config.timerBase) / 4, (addr - Config.timerBase) % 4)
  else (Config.decoderElsewhere addr).map fun p => (p.1.val, p.2.val)

/-- The byte READs of one guest read, in WIDE_ORDER; a byte not routed to the window is no access to
this block (R55). -/
def guestReadOps (addr width : Nat) : List Input :=
  (List.finRange width).filterMap fun j =>
    (routeGuest (addr + (Config.wideOrder false addr width j).val)).map fun p => .read p.1 p.2

/-- The byte WRITEs of one guest write, in WIDE_ORDER (R55). -/
def guestWriteOps (addr : Nat) (bytes : List Byte) : List Input :=
  (List.finRange bytes.length).filterMap fun j =>
    let k := Config.wideOrder true addr bytes.length j
    (routeGuest (addr + k.val)).map fun p => .write p.1 p.2 bytes[k]

/-- A presented command: run the operation it decodes to; a reserved word is refused
(30_encoding.md R71, R72). -/
def presentCommand (c : Command) (s : State) : Host.Outcome State Fault Refusal :=
  match decode c with
  | .ok i => exec i s
  | .error (.reserved w) => .refused (.reservedCommand w)
  | .error (.payload w) => .refused (.payloadMismatch w)

/-- One move of the environment on the state whose list no longer holds it. -/
def applyInput (x : Input) (s : State) : Host.Outcome State Fault Refusal :=
  match x with
  | .command c => presentCommand c s
  | .read id offset => exec (.ofRead id offset) s
  | .write id offset value => exec (.ofWrite id offset value) s
  | .advance n => exec (.adv n) s
  | .reset => exec .reset s
  | .guestRead addr width => .next { s with inputs := guestReadOps addr width ++ s.inputs }
  | .guestWrite addr bytes => .next { s with inputs := guestWriteOps addr bytes ++ s.inputs }
  | .interruptController clear set => .next { s with IF := (s.IF &&& ~~~clear) ||| set }

/-- Several operations one after the other, with none between them (a pseudo-operation of
30_encoding.md R83, for one). -/
def execAll (ops : List Instr) (s : State) : Host.Outcome State Fault Refusal :=
  match ops with
  | [] => .next s
  | i :: rest =>
    match exec i s with
    | .next s' => execAll rest s'
    | .fault r => .fault r
    | .refused r => .refused r

end Sys2Proof.Machine
end

