-- ==== Sys2Proof/Machine/Step.lean ====
section
/-!
DEFINITION. One step: the environment's oldest move is made (20_memory.md R60). The block has no program
counter and fetches nothing (10_state.md R34): what it runs next is what is presented to it.
-/

namespace Sys2Proof.Machine

/-- Make the oldest move of the list; with none to make, nothing changes (log 1). -/
def step (s : State) : Host.Outcome State Fault Refusal :=
  match s.inputs with
  | [] => .next s
  | x :: rest => applyInput x { s with inputs := rest }

/-- `s` with the command of an opcode-table word presented next, before the moves already listed
(log 1). -/
def State.withFetchWord (s : State) (nbits w : Nat) : State :=
  { s with inputs := .command (tableCommand nbits w) :: s.inputs }

end Sys2Proof.Machine
end

