-- ==== Sys2Proof/Machine/Reference.lean ====
section
/-!
DEFINITION. What the rules compare ADVANCE with: the two-phase pass (41_advance_engine.md R133), the
cycle-by-cycle reference timer (R131), and, for statements about a whole pass, the flag a cascade timer
finds when it is visited (42_cascade.md R142, R143, R146). No meaning uses them.
-/

namespace Sys2Proof.Machine

/-! ### How a timer is stepped -/

/-- An enabled timer whose `cascade` field is false (00_scope.md R15). -/
def Timer.freeRunning (t : Timer) : Bool := t.enable && !t.cascade

/-- An enabled timer whose `cascade` field is true (00_scope.md R15). -/
def Timer.cascading (t : Timer) : Bool := t.enable && t.cascade

/-- The flag of timer `t` right after its own visit, when its predecessor's flag was `prev` then:
kept by a disabled timer (R122) and by a cascade timer that found no overflow (R142), set by a wrap
and cleared otherwise by the two steps (R124 to R127, R143). -/
def flagAfterVisit (n : Nat) (prev : Bool) (t : Timer) : Bool :=
  if !t.enable then t.overflow
  else if t.cascade then (if prev then cascadeOverflow t else t.overflow)
  else freeOverflow t n

/-- The predecessor's flag as timer `i`'s visit finds it in an ADVANCE by `n` from state `s`; timer 0
has no predecessor (R141). -/
def incomingFlag (n : Nat) (s : State) (i : Fin 4) : Bool :=
  let f0 := flagAfterVisit n false (s.timer 0)
  let f1 := flagAfterVisit n f0 (s.timer 1)
  let f2 := flagAfterVisit n f1 (s.timer 2)
  match i with
  | 0 => false
  | 1 => f0
  | 2 => f1
  | 3 => f2

/-- Whether timer `i`'s successor is an enabled cascade timer, which consumes its flag (R143). -/
def successorCascades (s : State) (i : Fin 4) : Bool :=
  match i with
  | 0 => (s.timer 1).cascading
  | 1 => (s.timer 2).cascading
  | 2 => (s.timer 3).cascading
  | 3 => false

/-! ### The two-phase form (R133) -/

/-- First phase, one timer: the free-running step of a free-running timer, and nothing else. -/
def freeVisit (n : Nat) (p : Pass) (i : Fin 4) : Pass :=
  if (p.timer i).freeRunning then freeStep i n p else p

/-- Second phase, one timer: the cascade step of a cascade timer, and nothing else. -/
def cascadeVisit (p : Pass) (i : Fin 4) : Pass :=
  if (p.timer i).cascading then cascadeStep i p else p

/-- "compute all free-running timers' overflow first, then a second pass resolves cascade timers
strictly by index order reading the already-computed flags" (R133). -/
def twoPhasePass (n : Nat) (p : Pass) : Pass :=
  ([0, 1, 2, 3] : List (Fin 4)).foldl cascadeVisit
    (([0, 1, 2, 3] : List (Fin 4)).foldl (freeVisit n) p)

/-! ### The cycle-by-cycle reference (R131) -/

/-- The reference's state: a prescaler, the counter, and the wraps counted so far. -/
structure RefTimer where
  prescaler : Nat
  counter : HalfWord
  wraps : Nat
  deriving DecidableEq, Repr

/-- One tick: "A tick at `counter = 0xFFFF` loads `reload` and counts one wrap" (R131). -/
def refTick (reload : HalfWord) (r : RefTimer) : RefTimer :=
  if r.counter = 0xFFFF then { r with counter := reload, wraps := r.wraps + 1 }
  else { r with counter := r.counter + 1 }

/-- One base cycle: add one to the prescaler, and tick "when the prescaler reaches `2^shift`" (R131). -/
def refCycle (shift : Nat) (reload : HalfWord) (r : RefTimer) : RefTimer :=
  if r.prescaler + 1 = 2 ^ shift then refTick reload { r with prescaler := 0 }
  else { r with prescaler := r.prescaler + 1 }

/-- `n` base cycles, one at a time. -/
def refRun (shift : Nat) (reload : HalfWord) (n : Nat) (r : RefTimer) : RefTimer :=
  match n with
  | 0 => r
  | k + 1 => refRun shift reload k (refCycle shift reload r)

end Sys2Proof.Machine
end

