-- ==== Sys2Proof/Safety.lean ====
section
/-!
DEFINITION. What holds of every reachable state (10_state.md R21, R27, R29), what the environment promises
(20_memory.md R66, 60_exceptions.md R160), and what a safe run is.
-/

namespace Sys2Proof.Machine

/-- A timer record in order: its identity is its index (R21), `shift` and `mask` follow from
`frequency` (R27), and `cycles` is at most 0x3FF (R29). -/
def Timer.Inv (i : Fin 4) (t : Timer) : Prop :=
  t.id = i ∧ t.shift = shiftOf t.frequency ∧ t.mask = maskOf t.frequency ∧ t.cycles ≤ 0x3FF

/-- The `irq_set` output has no bit but the four request bits (60_exceptions.md R162). -/
def Ports.Inv (p : Ports) : Prop :=
  ∀ k, p.irqSet.getLsbD k = true → ∃ i : Fin 4, k = Config.irqBase + i.val

/-- The invariant of the block. -/
def State.Inv (s : State) : Prop := (∀ i, Timer.Inv i (s.timer i)) ∧ s.ports.Inv

/-- The environment's contract for one move: a command word that is an operation of the block, with
its payload (30_encoding.md R70 to R72), a timer index in 0..3 and a count that is not negative
(60_exceptions.md R160). -/
def Input.inContract (x : Input) : Bool :=
  match x with
  | .command c =>
    match decode c with
    | .ok _ => true
    | .error _ => false
  | .read id _ => validId id
  | .write id _ _ => validId id
  | .advance n => decide (0 ≤ n)
  | .reset => true
  | .guestRead _ _ => true
  | .guestWrite _ _ => true
  | .interruptController _ _ => true

/-- Every move to come keeps the contract. -/
def State.InContract (s : State) : Prop := ∀ x ∈ s.inputs, x.inContract = true

/-- A run of `k` steps that no fault and no refusal ends. -/
def SafeRun (k : Nat) (s : State) : Prop := ∃ t : State, Sys2Proof.core.run k s = .next t

end Sys2Proof.Machine
end

