-- ==== Sys2Proof/Certificates/Slice0/Obligations.lean ====
section
/-!
DEFINITION. The statements about the timer block, from the numbered rules of spec/. Where a clause rests
on a decision (D<n>) or an inference the spec marks as its own, its docstring says so. An index in 0..3 is
`i : Fin 4`; the word of `rd.cntl ti` and its kin is written out in numbers.
-/

section SliceZeroStatements

open Sys2Proof Sys2Proof.Machine

/-! ### What a step runs -/

/-- A step on a presented command runs exactly the well-formed operation its word and payload decode to,
on the state whose list no longer holds the command; and the host's numbered word is such a command
(30_encoding.md R70, R71, D11; the list of moves is the model's own, log 1). -/
def Obligations.StepRunsDecodedCommand : Prop :=
  (∀ (s : State) (c : Command) (rest : List Input) (i : Instr),
    decode c = .ok i →
      i.wellFormed = true ∧
        step { s with inputs := .command c :: rest } = exec i { s with inputs := rest }) ∧
  (∀ (s : State) (nbits w : Nat) (i : Instr),
    decodeTableWord nbits w = some i → step (s.withFetchWord nbits w) = exec i s)

/-- The other moves of the environment (20_memory.md R63 to R66): the source's calls run their
operation, and the interrupt controller clears and sets bits of `IF` and changes no timer. The model's own
choices in it: with no move to make nothing changes (log 1); the outputs hold through a move of the
interrupt controller (`t.ports = s.ports`, log 2); that controller's one move clears some bits and then
sets some (log 13). -/
def Obligations.StepMakesEnvironmentMove : Prop :=
  ∀ (s : State) (rest : List Input),
    step { s with inputs := [] } = .next { s with inputs := [] } ∧
    (∀ n : Int, step { s with inputs := .advance n :: rest } = exec (.adv n) { s with inputs := rest }) ∧
    step { s with inputs := .reset :: rest } = exec .reset { s with inputs := rest } ∧
    (∀ id : Nat,
      step { s with inputs := .read id 0 :: rest } = exec (.rdCntl id) { s with inputs := rest } ∧
      step { s with inputs := .read id 1 :: rest } = exec (.rdCnth id) { s with inputs := rest } ∧
      step { s with inputs := .read id 2 :: rest } = exec (.rdCtrl id) { s with inputs := rest }) ∧
    (∀ (id : Nat) (v : Byte),
      step { s with inputs := .write id 0 v :: rest } = exec (.wrRldl id v) { s with inputs := rest } ∧
      step { s with inputs := .write id 1 v :: rest } = exec (.wrRldh id v) { s with inputs := rest } ∧
      step { s with inputs := .write id 2 v :: rest } = exec (.wrCtrl id v) { s with inputs := rest }) ∧
    (∀ clear set : IrqWord, ∃ t : State,
      step { s with inputs := .interruptController clear set :: rest } = .next t ∧
        t.timers = s.timers ∧ t.ports = s.ports ∧ t.inputs = rest ∧
        ∀ k, t.IF.getLsbD k = ((s.IF.getLsbD k && !clear.getLsbD k) || set.getLsbD k))

/-- At the source's interface every offset from 3 on has the meaning of offset 3 (30_encoding.md R73): a READ
returns 0 and a WRITE is a no-op, both emptying the other outputs (log 2). An `id` outside 0..3 is a
contract violation there, which stops with InvalidArgument (40_bus_interface.md R100, 60_exceptions.md
R160; that the run stops is the spec's decision D15, log 12), and no command word can spell one. -/
def Obligations.OffsetsFromThreeAreUnused : Prop :=
  (∀ (s : State) (rest : List Input) (i : Fin 4) (offset : Nat) (v : Byte), 3 ≤ offset →
    step { s with inputs := .read i.val offset :: rest } =
        .next { s with inputs := rest, ports := { busRdata := some 0x00, irqSet := 0, wraps := none } } ∧
    step { s with inputs := .write i.val offset v :: rest } =
        .next { s with inputs := rest, ports := { busRdata := none, irqSet := 0, wraps := none } }) ∧
  (∀ (s : State) (rest : List Input) (id offset : Nat) (v : Byte), 4 ≤ id →
    step { s with inputs := .read id offset :: rest } = .fault (.invalidArgument (.timerId id)) ∧
    step { s with inputs := .write id offset v :: rest } = .fault (.invalidArgument (.timerId id))) ∧
  (∀ (c : Command) (i : Instr), decode c = .ok i → i.wellFormed = true)

/-- A guest access of one byte to TIMER_BASE + 4 * id + offset becomes the byte READ or WRITE of
`(id, offset)`, presented before every later move (20_memory.md R51, R52, D3: ascending slots are the
spec's decision). -/
def Obligations.GuestByteAccessIsWindowByte : Prop :=
  ∀ (s : State) (rest : List Input) (i offset : Fin 4) (v : Byte),
    step { s with
        inputs := .guestRead (Config.timerBase + 4 * i.val + offset.val) 1 :: rest } =
      .next { s with inputs := .read i.val offset.val :: rest } ∧
    step { s with
        inputs := .guestWrite (Config.timerBase + 4 * i.val + offset.val) [v] :: rest } =
      .next { s with inputs := .write i.val offset.val v :: rest }

/-- A guest write wider than a byte that lies in the window is exactly its byte WRITEs, each once, in
some order and with nothing between them (20_memory.md R55, D4: the order WIDE_ORDER is open, log 5). Which
(id, offset) a byte goes to is R51, R52 with the ascending slots of the spec's decision D3 (log 10). -/
def Obligations.WideGuestWriteIsItsByteWrites : Prop :=
  ∀ (s : State) (rest : List Input) (rel : Nat) (bytes : List Byte), rel + bytes.length ≤ 16 →
    ∃ ops : List Input,
      step { s with inputs := .guestWrite (Config.timerBase + rel) bytes :: rest } =
          .next { s with inputs := ops ++ rest } ∧
        ops.Perm ((List.range bytes.length).map fun k =>
          .write ((rel + k) / 4) ((rel + k) % 4) (bytes.getD k 0))

/-- A guest read wider than a byte that lies in the window is exactly its byte READs, each once, in some
order and with nothing between them (20_memory.md R55, D4: the order WIDE_ORDER is open, log 5). Which
(id, offset) a byte is read from is R51, R52 with the ascending slots of the spec's decision D3 (log 10). -/
def Obligations.WideGuestReadIsItsByteReads : Prop :=
  ∀ (s : State) (rest : List Input) (rel width : Nat), rel + width ≤ 16 →
    ∃ ops : List Input,
      step { s with inputs := .guestRead (Config.timerBase + rel) width :: rest } =
          .next { s with inputs := ops ++ rest } ∧
        ops.Perm ((List.range width).map fun k => .read ((rel + k) / 4) ((rel + k) % 4))

/-! ### Encoding -/

/-- A few command words of the opcode map (30_encoding.md R81, D11), written out from their patterns. -/
def Obligations.SampleWordsDecode : Prop :=
  decode ⟨0b00001100, .none⟩ = .ok (.rdCntl 3) ∧ decode ⟨0b00000101, .none⟩ = .ok (.rdCnth 1) ∧
  decode ⟨0b00001010, .none⟩ = .ok (.rdCtrl 2) ∧ decode ⟨0b00000011, .none⟩ = .ok (.rdUnused 0) ∧
  decode ⟨0b01000000, .byte 0x5A⟩ = .ok (.wrRldl 0 0x5A) ∧
  decode ⟨0b01001101, .byte 0xA5⟩ = .ok (.wrRldh 3 0xA5) ∧
  decode ⟨0b01001010, .byte 0xFF⟩ = .ok (.wrCtrl 2 0xFF) ∧
  decode ⟨0b01000111, .byte 0xAA⟩ = .ok (.wrUnused 1 0xAA) ∧
  decode ⟨0b10000000, .count 65791⟩ = .ok (.adv 65791) ∧ decode ⟨0b11000000, .none⟩ = .ok .reset

/-- Decoding an encoded well-formed operation gives it back, whatever its index, byte or count
(30_encoding.md R70, R81, D11). -/
def Obligations.DecodeEncode : Prop :=
  ∀ i : Instr, i.wellFormed = true → decode (encode i) = .ok i

/-- A command that decodes is the encoding of the operation it decodes to: each operation has one
command (30_encoding.md R70, R81, D11). -/
def Obligations.EncodeDecode : Prop :=
  ∀ (c : Command) (i : Instr), decode c = .ok i → encode i = c

/-- A command word with `CW[5:4] != 00`, or an ADVANCE or RESET word with `CW[3:0] != 0000`, is refused
by name whatever its payload; these are 222 of the 256 words, and each of the other 34 is an operation
with the payload of its kind (30_encoding.md R72, D11). -/
def Obligations.ReservedWordsRefused : Prop :=
  (∀ (s : State) (w : Byte) (p : Payload) (rest : List Input),
    (w.extractLsb' 4 2 ≠ 0 ∨ (w.extractLsb' 7 1 = 1 ∧ w.extractLsb' 0 4 ≠ 0)) →
      step { s with inputs := .command ⟨w, p⟩ :: rest } = .refused (.reservedCommand w)) ∧
  (∀ w : Byte, ¬(w.extractLsb' 4 2 ≠ 0 ∨ (w.extractLsb' 7 1 = 1 ∧ w.extractLsb' 0 4 ≠ 0)) →
    ∃ (p : Payload) (i : Instr), decode ⟨w, p⟩ = .ok i) ∧
  ((List.range 256).countP fun k => isReserved (BitVec.ofNat 8 k)) = 222

/-- The row of the opcode map that covers a decoded command's word is the row of the operation it decodes
to, and the only one; no row covers a reserved word (30_encoding.md R81; the spec's own inference from
R70). -/
def Obligations.OpcodeMapUnambiguous : Prop :=
  (∀ (c : Command) (i : Instr), decode c = .ok i →
    (opcodeTable.filter fun r => r.covers c.word).map (·.mnemonic) = [i.mnemonic]) ∧
  (∀ w : Byte, isReserved w = true → (opcodeTable.filter fun r => r.covers w) = [])

/-! ### READ -/

/-- R101: `rd.cntl` answers `counter[7:0]` of its timer and writes no state; out of range it raises
InvalidArgument; its word is `0000ii00`. -/
def Obligations.RdCntlAnswersLowByte : Prop :=
  ∀ s : State,
    (∀ i : Fin 4,
      exec (.rdCntl i.val) s =
        .next { s with
          ports := { busRdata := some ((s.timer i).counter.extractLsb' 0 8), irqSet := 0, wraps := none } } ∧
      decode ⟨BitVec.ofNat 8 (4 * i.val), .none⟩ = .ok (.rdCntl i.val)) ∧
    (∀ id : Nat, 3 < id → exec (.rdCntl id) s = .fault (.invalidArgument (.timerId id)))

/-- R102: `rd.cnth` answers `counter[15:8]` of its timer and writes no state; out of range it raises
InvalidArgument; its word is `0000ii01`. -/
def Obligations.RdCnthAnswersHighByte : Prop :=
  ∀ s : State,
    (∀ i : Fin 4,
      exec (.rdCnth i.val) s =
        .next { s with
          ports := { busRdata := some ((s.timer i).counter.extractLsb' 8 8), irqSet := 0, wraps := none } } ∧
      decode ⟨BitVec.ofNat 8 (4 * i.val + 1), .none⟩ = .ok (.rdCnth i.val)) ∧
    (∀ id : Nat, 3 < id → exec (.rdCnth id) s = .fault (.invalidArgument (.timerId id)))

/-- The two bytes of a counter (40_bus_interface.md R102, 20_memory.md R54, the spec's own inference): `rd.cntl`
then `rd.cnth` answer the bytes of one counter value, also with any WRITE between them that is no control
WRITE to that timer, and with any READ between them. -/
def Obligations.TwoReadsAnswerOneCounterValue : Prop :=
  ∀ (s : State) (i : Fin 4) (other : Instr), other.wellFormed = true →
    (∀ v : Byte, other ≠ .wrCtrl i.val v) → (∀ n : Int, other ≠ .adv n) → other ≠ .reset →
    ∃ (t u v : State) (lo hi : Byte), exec (.rdCntl i.val) s = .next t ∧ exec other t = .next u ∧
      exec (.rdCnth i.val) u = .next v ∧ t.ports.busRdata = some lo ∧ v.ports.busRdata = some hi ∧
      hi.toNat * 0x100 + lo.toNat = (s.timer i).counter.toNat

/-- R103: `rd.ctrl` answers the packed control byte (bits 1:0 frequency, 2 cascade, 6 interrupt, 7 enable,
5:3 zero) and writes no state; out of range it raises InvalidArgument; its word is `0000ii10`. -/
def Obligations.RdCtrlAnswersControlByte : Prop :=
  ∀ s : State,
    (∀ i : Fin 4,
      decode ⟨BitVec.ofNat 8 (4 * i.val + 2), .none⟩ = .ok (.rdCtrl i.val) ∧
      ∃ b : Byte,
        exec (.rdCtrl i.val) s =
            .next { s with ports := { busRdata := some b, irqSet := 0, wraps := none } } ∧
          b.extractLsb' 0 2 = (s.timer i).frequency ∧ b.getLsbD 2 = (s.timer i).cascade ∧
          b.extractLsb' 3 3 = 0 ∧ b.getLsbD 6 = (s.timer i).interrupt ∧
          b.getLsbD 7 = (s.timer i).enable) ∧
    (∀ id : Nat, 3 < id → exec (.rdCtrl id) s = .fault (.invalidArgument (.timerId id)))

/-- R104: `rd.unused` answers 0x00 in every state, also right after a `wr.unused` of any value, and writes
no state; out of range it raises InvalidArgument; its word is `0000ii11`. At the source's interface any
offset from 3 on reads the same. -/
def Obligations.RdUnusedAnswersZero : Prop :=
  ∀ s : State,
    (∀ i : Fin 4,
      exec (.rdUnused i.val) s =
        .next { s with ports := { busRdata := some 0x00, irqSet := 0, wraps := none } } ∧
      decode ⟨BitVec.ofNat 8 (4 * i.val + 3), .none⟩ = .ok (.rdUnused i.val) ∧
      (∀ offset : Nat, 3 ≤ offset → Instr.ofRead i.val offset = .rdUnused i.val) ∧
      ∀ v : Byte, ∃ t : State, exec (.wrUnused i.val v) s = .next t ∧
        exec (.rdUnused i.val) t =
          .next { t with ports := { busRdata := some 0x00, irqSet := 0, wraps := none } }) ∧
    (∀ id : Nat, 3 < id → exec (.rdUnused id) s = .fault (.invalidArgument (.timerId id)))

/-- Two states whose timer `i` has the same `counter` and control fields answer every READ of that timer
alike, whatever else differs: `reload`, `shift`, `mask`, `cycles`, `overflow`, the other timers and `IF`
are not seen (10_state.md R37). -/
def Obligations.ReadsSeeOnlyCounterAndControl : Prop :=
  ∀ (s s' : State) (i : Fin 4) (offset : Nat),
    (s.timer i).counter = (s'.timer i).counter → (s.timer i).frequency = (s'.timer i).frequency →
    (s.timer i).cascade = (s'.timer i).cascade → (s.timer i).interrupt = (s'.timer i).interrupt →
    (s.timer i).enable = (s'.timer i).enable →
    ∃ (t t' : State) (b : Byte),
      exec (.ofRead i.val offset) s = .next t ∧ exec (.ofRead i.val offset) s' = .next t' ∧
        t.ports.busRdata = some b ∧ t'.ports.busRdata = some b ∧
        t.timers = s.timers ∧ t.IF = s.IF ∧ t.inputs = s.inputs

/-! ### WRITE -/

/-- `wr.rldl` (40_bus_interface.md R105) replaces `reload[7:0]` of its timer and changes no other state; out of range it raises
InvalidArgument; its word is `0100ii00`. -/
def Obligations.WrRldlReplacesLowByte : Prop :=
  ∀ (s : State) (v : Byte),
    (∀ i : Fin 4,
      exec (.wrRldl i.val v) s =
        .next { s with
          timers := s.timers.set i.val
            { s.timer i with reload := (s.timer i).reload.extractLsb' 8 8 ++ v }
          ports := { busRdata := none, irqSet := 0, wraps := none } } ∧
      decode ⟨BitVec.ofNat 8 (0x40 + 4 * i.val), .byte v⟩ = .ok (.wrRldl i.val v)) ∧
    (∀ id : Nat, 3 < id → exec (.wrRldl id v) s = .fault (.invalidArgument (.timerId id)))

/-- `wr.rldh` (40_bus_interface.md R106) replaces `reload[15:8]` of its timer and changes no other state; out of range it raises
InvalidArgument; its word is `0100ii01`. -/
def Obligations.WrRldhReplacesHighByte : Prop :=
  ∀ (s : State) (v : Byte),
    (∀ i : Fin 4,
      exec (.wrRldh i.val v) s =
        .next { s with
          timers := s.timers.set i.val
            { s.timer i with reload := v ++ (s.timer i).reload.extractLsb' 0 8 }
          ports := { busRdata := none, irqSet := 0, wraps := none } } ∧
      decode ⟨BitVec.ofNat 8 (0x41 + 4 * i.val), .byte v⟩ = .ok (.wrRldh i.val v)) ∧
    (∀ id : Nat, 3 < id → exec (.wrRldh id v) s = .fault (.invalidArgument (.timerId id)))

/-- `wr.ctrl` (40_bus_interface.md R107) stores the four control fields of its byte, recomputes `shift` and
`mask` from the new `frequency`, loads `counter` from `reload` exactly if `enable` changes from false to
true, and changes no other state; that `cycles` and `overflow` are kept is the spec's decision (D6, D7);
out of range it raises InvalidArgument; its word is `0100ii10`. -/
def Obligations.WrCtrlDecodesControlByte : Prop :=
  ∀ (s : State) (v : Byte),
    (∀ i : Fin 4,
      exec (.wrCtrl i.val v) s =
        .next { s with
          timers := s.timers.set i.val
            { s.timer i with
              frequency := v.extractLsb' 0 2
              cascade := v.getLsbD 2
              interrupt := v.getLsbD 6
              enable := v.getLsbD 7
              shift := [0, 6, 8, 10].getD (v.extractLsb' 0 2).toNat 0
              mask := [0, 0x3F, 0xFF, 0x3FF].getD (v.extractLsb' 0 2).toNat 0
              counter := if (s.timer i).enable = false ∧ v.getLsbD 7 = true then (s.timer i).reload
                else (s.timer i).counter }
          ports := { busRdata := none, irqSet := 0, wraps := none } } ∧
      decode ⟨BitVec.ofNat 8 (0x42 + 4 * i.val), .byte v⟩ = .ok (.wrCtrl i.val v)) ∧
    (∀ id : Nat, 3 < id → exec (.wrCtrl id v) s = .fault (.invalidArgument (.timerId id)))

/-- R108: `wr.unused` changes no state, whatever the byte; out of range it raises InvalidArgument; its word
is `0100ii11`. At the source's interface a WRITE to any offset from 3 on is the same no-op, and a later
`rd.unused` still answers 0x00. -/
def Obligations.WrUnusedChangesNothing : Prop :=
  ∀ (s : State) (v : Byte),
    (∀ i : Fin 4,
      exec (.wrUnused i.val v) s =
        .next { s with ports := { busRdata := none, irqSet := 0, wraps := none } } ∧
      decode ⟨BitVec.ofNat 8 (0x43 + 4 * i.val), .byte v⟩ = .ok (.wrUnused i.val v) ∧
      (∀ offset : Nat, 3 ≤ offset → Instr.ofWrite i.val offset v = .wrUnused i.val v) ∧
      ∃ t u : State, exec (.wrUnused i.val v) s = .next t ∧ exec (.rdUnused i.val) t = .next u ∧
        u.ports.busRdata = some 0x00) ∧
    (∀ id : Nat, 3 < id → exec (.wrUnused id v) s = .fault (.invalidArgument (.timerId id)))

/-- Whole-machine rule of the bus interface (40_bus_interface.md R109, the spec's own inference): no READ or
WRITE changes `cycles`, `overflow` or `IF`, and one changes `counter` only if it is the control WRITE of
that timer with an enable edge, which sets it to `reload`. -/
def Obligations.OnlyEnableEdgeChangesCounter : Prop :=
  ∀ (i : Instr) (s t : State), exec i s = .next t → i ≠ .reset → (∀ n : Int, i ≠ .adv n) →
    t.IF = s.IF ∧ t.inputs = s.inputs ∧ t.ports.wraps = none ∧
    ∀ j : Fin 4,
      (t.timer j).cycles = (s.timer j).cycles ∧ (t.timer j).overflow = (s.timer j).overflow ∧
      ((t.timer j).counter ≠ (s.timer j).counter →
        ∃ v : Byte, i = .wrCtrl j.val v ∧ (s.timer j).enable = false ∧ v.getLsbD 7 = true ∧
          (t.timer j).counter = (s.timer j).reload)

/-- "write-any-read-back" (10_state.md R25, the spec's own inference for timer 0): a control byte written to
a timer reads back at once with bits 5:3 zero, and reads back the same after any WRITE to another timer
or to the timer's reload. -/
def Obligations.ControlByteReadsBack : Prop :=
  ∀ (s : State) (i : Fin 4) (v : Byte) (other : Instr),
    other.wellFormed = true → (∀ w : Byte, other ≠ .wrCtrl i.val w) → other ≠ .reset →
    ∃ t u w : State,
      exec (.wrCtrl i.val v) s = .next t ∧ exec other t = .next u ∧ exec (.rdCtrl i.val) u = .next w ∧
        w.ports.busRdata = some (v &&& 0xC7)

/-- The pseudo-operation `wr.rld` (30_encoding.md R83, D12) sets all 16 bits of `reload` and changes no
other state, and the two bytes may be written in either order. -/
def Obligations.ReloadAssemblesInEitherOrder : Prop :=
  ∀ (s : State) (i : Fin 4) (v : HalfWord),
    let written : State :=
      { s with
        timers := s.timers.set i.val { s.timer i with reload := v }
        ports := { busRdata := none, irqSet := 0, wraps := none } }
    execAll (Pseudo.wrRld i.val v).expand s = .next written ∧
    execAll [.wrRldh i.val (v.extractLsb' 8 8), .wrRldl i.val (v.extractLsb' 0 8)] s = .next written

/-- Restarting a running timer (70_reset_and_hazards.md R185, the spec's own inference): a control byte with
`enable` clear and then one with `enable` set load `counter` from `reload` whatever the timer did before,
where the second byte alone leaves a running timer's counter; the leftover cycles survive (D6). -/
def Obligations.DisableThenEnableReloads : Prop :=
  ∀ (s : State) (i : Fin 4) (off on : Byte), off.getLsbD 7 = false → on.getLsbD 7 = true →
    (∃ t : State, execAll [.wrCtrl i.val off, .wrCtrl i.val on] s = .next t ∧
      (t.timer i).counter = (s.timer i).reload ∧ (t.timer i).cycles = (s.timer i).cycles ∧
      (t.timer i).overflow = (s.timer i).overflow ∧ (t.timer i).enable = true) ∧
    ((s.timer i).enable = true →
      ∃ t : State, execAll [.wrCtrl i.val on] s = .next t ∧ (t.timer i).counter = (s.timer i).counter)

/-- The order in which the bytes of a wide guest write reach the block matters (70_reset_and_hazards.md
R186, D4): for a disabled timer, reload bytes before the enabling control byte start the counter from the
new reload value, and after it from the old one; both leave the new reload value. -/
def Obligations.ReloadBeforeControlStartsFromNewReload : Prop :=
  ∀ (s : State) (i : Fin 4) (v : HalfWord) (ctrl : Byte),
    (s.timer i).enable = false → ctrl.getLsbD 7 = true →
    (∃ t : State, execAll (Pseudo.start i.val v ctrl).expand s = .next t ∧
      (t.timer i).counter = v ∧ (t.timer i).reload = v) ∧
    (∃ t : State, execAll (.wrCtrl i.val ctrl :: (Pseudo.wrRld i.val v).expand) s = .next t ∧
      (t.timer i).counter = (s.timer i).reload ∧ (t.timer i).reload = v)

/-- A reload WRITE is deferred (70_reset_and_hazards.md R185; the corner cases of 40_bus_interface.md R105,
R106): it changes no counter at once. The next enable edge loads the new value; a running timer first
counts to its wrap, which restarts it from the new value with the new period. -/
def Obligations.ReloadWriteIsDeferred : Prop :=
  ∀ (s : State) (i : Fin 4) (v : Byte) (write : Instr) (new : HalfWord),
    (write = .wrRldl i.val v ∧ new = (s.timer i).reload.extractLsb' 8 8 ++ v ∨
      write = .wrRldh i.val v ∧ new = v ++ (s.timer i).reload.extractLsb' 0 8) →
    (∃ t : State, exec write s = .next t ∧ (t.timer i).counter = (s.timer i).counter) ∧
    (∀ ctrl : Byte, (s.timer i).enable = false → ctrl.getLsbD 7 = true →
      ∃ t : State, execAll [write, .wrCtrl i.val ctrl] s = .next t ∧ (t.timer i).counter = new) ∧
    (∀ n : Nat, (s.timer i).enable = true → (s.timer i).cascade = false →
      let ticks := ((s.timer i).cycles + n) >>> (s.timer i).shift
      let span := 0x10000 - (s.timer i).counter.toNat
      ∃ t : State, execAll [write, .adv n] s = .next t ∧
        (ticks < span → (t.timer i).counter.toNat = (s.timer i).counter.toNat + ticks) ∧
        (span ≤ ticks →
          (t.timer i).counter.toNat = new.toNat + (ticks - span) % (0x10000 - new.toNat)))

/-! ### ADVANCE: one timer -/

/-- A disabled timer is skipped (41_advance_engine.md R122): its visit changes nothing at all, so that its
flag is still there for its cascade successor to read. Over the whole ADVANCE its record stays, with 0
wraps and no request, but for a flag that an enabled cascade successor consumes (42_cascade.md R143); that
such a stale flag is read and consumed is R146 by the spec's decision D7 (log 7). -/
def Obligations.AdvanceSkipsDisabledTimer : Prop :=
  (∀ (s : State) (n : Nat) (i : Fin 4), (s.timer i).enable = false →
    ∃ (t : State) (w : Vector Nat 4), exec (.adv n) s = .next t ∧ t.ports.wraps = some w ∧
      w[i.val] = 0 ∧
      t.timer i = { s.timer i with overflow := (s.timer i).overflow && !successorCascades s i } ∧
      t.ports.irqSet.getLsbD (Config.irqBase + i.val) = false) ∧
  (∀ (p : Pass) (n : Nat) (i : Fin 4), (p.timer i).enable = false → visit n p i = p)

/-- R124 to R126, and the counter after a wrap (R127): an enabled free-running timer counts
`(cycles + n) >> shift` ticks; fewer than `0x10000 - counter` are added, otherwise the counter restarts
from `reload` and goes on with what remains in the period. Its flag is cleared first and set by a wrap; a
cascade successor consumes it. Its `cycles` are the remainder under `mask` (R128). -/
def Obligations.AdvanceCountsFreeRunningTimer : Prop :=
  ∀ (s : State) (n : Nat) (i : Fin 4), (s.timer i).enable = true → (s.timer i).cascade = false →
    let ticks := ((s.timer i).cycles + n) >>> (s.timer i).shift
    let span := 0x10000 - (s.timer i).counter.toNat
    let period := 0x10000 - (s.timer i).reload.toNat
    ∃ t : State, exec (.adv n) s = .next t ∧
      (ticks < span → (t.timer i).counter.toNat = (s.timer i).counter.toNat + ticks ∧
        (t.timer i).overflow = false) ∧
      (span ≤ ticks → (t.timer i).counter.toNat = (s.timer i).reload.toNat + (ticks - span) % period ∧
        (t.timer i).overflow = !successorCascades s i) ∧
      (t.timer i).cycles = ((s.timer i).cycles + n) &&& (s.timer i).mask

/-- No base cycle is lost or counted twice (41_advance_engine.md R128, the spec's own inference), and the
leftover lies under the mask right after the step (10_state.md R29): in a state in order, what an enabled
free-running timer had and got is its ticks times the divisor plus its new leftover. -/
def Obligations.NoCycleIsLost : Prop :=
  ∀ (s : State) (n : Nat) (i : Fin 4), s.Inv → (s.timer i).enable = true → (s.timer i).cascade = false →
    ∃ t : State, exec (.adv n) s = .next t ∧
      (s.timer i).cycles + n =
        (((s.timer i).cycles + n) >>> (s.timer i).shift) * 2 ^ (s.timer i).shift + (t.timer i).cycles ∧
      (t.timer i).cycles ≤ (t.timer i).mask ∧ (t.timer i).mask < 2 ^ (s.timer i).shift

/-- An enabled cascade timer above timer 0 that finds its predecessor's flag false at its visit changes
nothing (42_cascade.md R142): the visit leaves all four timers, the requests and the counts of wraps as
they are. Over the whole ADVANCE its record stays, with 0 wraps, and its predecessor's flag is still false;
only a flag it kept is consumed by its own enabled cascade successor (R143, and R146 by the spec's decision
D7, log 7). -/
def Obligations.CascadeWaitsForPredecessor : Prop :=
  (∀ (s : State) (n : Nat) (j i : Fin 4), j.val + 1 = i.val →
    (s.timer i).enable = true → (s.timer i).cascade = true → incomingFlag n s i = false →
    ∃ (t : State) (w : Vector Nat 4), exec (.adv n) s = .next t ∧ t.ports.wraps = some w ∧ w[i.val] = 0 ∧
      t.timer i = { s.timer i with overflow := (s.timer i).overflow && !successorCascades s i } ∧
      (t.timer j).overflow = false ∧ t.ports.irqSet.getLsbD (Config.irqBase + i.val) = false) ∧
  (∀ (p : Pass) (n : Nat) (j i : Fin 4), j.val + 1 = i.val →
    (p.timer i).enable = true → (p.timer i).cascade = true → (p.timer j).overflow = false →
    visit n p i = p)

/-- An enabled cascade timer above timer 0 that finds its predecessor's flag true at its visit
(42_cascade.md R143) counts one tick, or wraps to `reload` at 0xFFFF, setting its own flag and its request
bit if `interrupt` is set; its `cycles` stay and its predecessor's flag is consumed. Its count of wraps,
1 or 0, is the spec's decision (D8), and a stale flag counts by the spec's decision D7. -/
def Obligations.CascadeTicksOnPredecessorOverflow : Prop :=
  ∀ (s : State) (n : Nat) (j i : Fin 4), j.val + 1 = i.val →
    (s.timer i).enable = true → (s.timer i).cascade = true → incomingFlag n s i = true →
    ∃ (t : State) (w : Vector Nat 4), exec (.adv n) s = .next t ∧ t.ports.wraps = some w ∧
      (t.timer j).overflow = false ∧ (t.timer i).cycles = (s.timer i).cycles ∧
      ((s.timer i).counter ≠ 0xFFFF →
        (t.timer i).counter.toNat = (s.timer i).counter.toNat + 1 ∧ (t.timer i).overflow = false ∧
          w[i.val] = 0 ∧ t.ports.irqSet.getLsbD (Config.irqBase + i.val) = false) ∧
      ((s.timer i).counter = 0xFFFF →
        (t.timer i).counter = (s.timer i).reload ∧ (t.timer i).overflow = !successorCascades s i ∧
          w[i.val] = 1 ∧
          t.ports.irqSet.getLsbD (Config.irqBase + i.val) = (s.timer i).interrupt)

/-- An enabled timer 0 with `cascade` set neither cascades nor runs free (42_cascade.md R141): its `counter`
and `cycles` stay, it wraps 0 times and asserts no request. Its `overflow` stays too, until timer 1 consumes
it as an enabled cascade timer (R143, and R146 by the spec's decision D7, log 7). -/
def Obligations.CascadeOnTimerZeroStandsStill : Prop :=
  ∀ (s : State) (n : Nat), (s.timer 0).enable = true → (s.timer 0).cascade = true →
    ∃ (t : State) (w : Vector Nat 4), exec (.adv n) s = .next t ∧ t.ports.wraps = some w ∧ w[0] = 0 ∧
      t.timer 0 = { s.timer 0 with
        overflow := (s.timer 0).overflow && !((s.timer 1).enable && (s.timer 1).cascade) } ∧
      t.ports.irqSet.getLsbD Config.irqBase = false

/-- The count of wraps ADVANCE gives for a free-running timer (41_advance_engine.md R127, R129, D8): 0 if it
does not wrap, otherwise one and the whole periods that remain; no division by zero can happen (R130). -/
def Obligations.AdvanceCountsWraps : Prop :=
  ∀ (s : State) (n : Nat) (i : Fin 4), (s.timer i).enable = true → (s.timer i).cascade = false →
    let ticks := ((s.timer i).cycles + n) >>> (s.timer i).shift
    let span := 0x10000 - (s.timer i).counter.toNat
    let period := 0x10000 - (s.timer i).reload.toNat
    0 < span ∧ 0 < period ∧
    ∃ (t : State) (w : Vector Nat 4), exec (.adv n) s = .next t ∧ t.ports.wraps = some w ∧
      w[i.val] = if ticks < span then 0 else 1 + (ticks - span) / period

/-- ADVANCE changes only `counter`, `overflow` and `cycles` of a timer (10_state.md R37), `cycles` only of an
enabled free-running timer (R28), `counter` only of an enabled one (R22), `overflow` of a disabled one only
by a cascade successor that consumes it (42_cascade.md R143, and R146 by the spec's decision D7, log 7),
and neither the list of moves nor anything else. -/
def Obligations.AdvanceFrame : Prop :=
  ∀ (s : State) (n : Nat), ∃ t : State, exec (.adv n) s = .next t ∧ t.inputs = s.inputs ∧
    t.ports.busRdata = none ∧
    ∀ i : Fin 4,
      t.timer i = { s.timer i with
        counter := (t.timer i).counter
        cycles := (t.timer i).cycles
        overflow := (t.timer i).overflow } ∧
      ((t.timer i).cycles ≠ (s.timer i).cycles → (s.timer i).enable = true ∧ (s.timer i).cascade = false) ∧
      ((t.timer i).counter ≠ (s.timer i).counter → (s.timer i).enable = true) ∧
      ((t.timer i).overflow ≠ (s.timer i).overflow →
        (s.timer i).enable = true ∨ (successorCascades s i = true ∧ (t.timer i).overflow = false))

/-- An ADVANCE of 0 cycles (41_advance_engine.md R120, R124, R125; 70_reset_and_hazards.md R187) clears the
flag of every enabled free-running timer it does not make wrap, and counts what a lowered `frequency` left
above the mask: with the leftover under the divisor it changes no counter. -/
def Obligations.AdvanceZeroCountsOnlyLeftover : Prop :=
  ∀ (s : State) (i : Fin 4), (s.timer i).enable = true → (s.timer i).cascade = false →
    ∃ t : State, exec (.adv 0) s = .next t ∧
      ((s.timer i).cycles < 2 ^ (s.timer i).shift →
        (t.timer i).counter = (s.timer i).counter ∧ (t.timer i).overflow = false) ∧
      ((s.timer i).cycles >>> (s.timer i).shift < 0x10000 - (s.timer i).counter.toNat →
        (t.timer i).counter.toNat =
            (s.timer i).counter.toNat + (s.timer i).cycles >>> (s.timer i).shift ∧
          (t.timer i).overflow = false)

/-- Re-enabling keeps the leftover cycles (70_reset_and_hazards.md R188, D6): the first tick of a timer
enabled free-running comes `2^shift - cycles` base cycles after the edge. -/
def Obligations.FirstTickComesEarlyByLeftover : Prop :=
  ∀ (s : State) (i : Fin 4) (ctrl : Byte) (n : Nat),
    (s.timer i).enable = false → ctrl.getLsbD 7 = true → ctrl.getLsbD 2 = false →
    (s.timer i).reload ≠ 0xFFFF →
    let divisor := [1, 64, 256, 1024].getD (ctrl.extractLsb' 0 2).toNat 1
    ∃ t : State, execAll [.wrCtrl i.val ctrl, .adv n] s = .next t ∧
      ((s.timer i).cycles + n < divisor → (t.timer i).counter = (s.timer i).reload) ∧
      (divisor ≤ (s.timer i).cycles + n → (s.timer i).cycles + n < 2 * divisor →
        (t.timer i).counter = (s.timer i).reload + 1)

/-! ### ADVANCE: interrupts -/

/-- The requests of one ADVANCE (41_advance_engine.md R129, 60_exceptions.md R162, R163, D2, D8): `IF` gains
exactly `irq_set`, whose bits are IRQ_BASE + i for the timers `i` that wrapped with `interrupt` set, one
bit however often each wrapped. -/
def Obligations.AdvanceRaisesRequestOfEachWrappedTimer : Prop :=
  ∀ (s : State) (n : Nat), ∃ (t : State) (w : Vector Nat 4),
    exec (.adv n) s = .next t ∧ t.ports.wraps = some w ∧ t.IF = s.IF ||| t.ports.irqSet ∧
    (∀ k : Nat, t.ports.irqSet.getLsbD k = true ↔
      ∃ i : Fin 4, k = Config.irqBase + i.val ∧ (s.timer i).interrupt = true ∧ 0 < w[i.val]) ∧
    (∀ i : Fin 4, t.IF.getLsbD (Config.irqBase + i.val) =
      (s.IF.getLsbD (Config.irqBase + i.val) || ((s.timer i).interrupt && decide (0 < w[i.val]))))

/-- No operation clears a bit of `IF`, only ADVANCE sets one, and only one of the four request bits
IRQ_BASE to IRQ_BASE + 3, which lie inside the word (10_state.md R32, 60_exceptions.md R162, R181, D2,
D10). -/
def Obligations.IFOnlyGainsRequestBits : Prop :=
  (∀ (i : Instr) (s t : State), exec i s = .next t →
    ∀ k : Nat,
      (s.IF.getLsbD k = true → t.IF.getLsbD k = true) ∧
      (t.IF.getLsbD k = true → s.IF.getLsbD k = false →
        (∃ n : Int, i = .adv n) ∧ ∃ j : Fin 4, k = Config.irqBase + j.val)) ∧
  (∀ j : Fin 4, Config.irqBase + j.val < Config.irqWidth) ∧ 16 ≤ Config.irqWidth

/-- The block never reads `IF` (10_state.md R32, 60_exceptions.md R164): with another word in its place every
operation does the same to the timers and outputs, and ORs the same requests into it. -/
def Obligations.IFDoesNotInfluenceTheBlock : Prop :=
  ∀ (i : Instr) (s t : State) (word : IrqWord), exec i s = .next t →
    exec i { s with IF := word } = .next { t with IF := word ||| t.ports.irqSet }

/-! ### ADVANCE: the pass as a whole -/

/-- The two-phase form gives the same result as the single pass (41_advance_engine.md R133, the spec's own
inference; conflict C8). -/
def Obligations.TwoPhasePassGivesSameResult : Prop :=
  ∀ (s : State) (n : Nat), exec (.adv n) s = .next (endPass s (twoPhasePass n (startPass s)))

/-- An enabled free-running timer's own results do not depend on how the cycles are batched
(41_advance_engine.md R131, the spec's own inference): ADVANCE(a) then ADVANCE(b) leaves the `counter` and
`cycles` of ADVANCE(a + b), the counts of wraps add up, and its request bit ends up the same. -/
def Obligations.FreeRunningIsBatchIndependent : Prop :=
  ∀ (s : State) (a b : Nat) (i : Fin 4), s.Inv → (s.timer i).enable = true → (s.timer i).cascade = false →
    ∃ (t u v : State) (wa wb wab : Vector Nat 4),
      exec (.adv a) s = .next t ∧ exec (.adv b) t = .next u ∧ exec (.adv (a + b : Nat)) s = .next v ∧
      t.ports.wraps = some wa ∧ u.ports.wraps = some wb ∧ v.ports.wraps = some wab ∧
      (u.timer i).counter = (v.timer i).counter ∧ (u.timer i).cycles = (v.timer i).cycles ∧
      wa[i.val] + wb[i.val] = wab[i.val] ∧
      u.IF.getLsbD (Config.irqBase + i.val) = v.IF.getLsbD (Config.irqBase + i.val)

/-- ADVANCE equals the cycle-by-cycle reference on an enabled free-running timer whose leftover is under the
mask (41_advance_engine.md R131, the spec's own inference): adding one to a prescaler each base cycle,
ticking the counter when it reaches `2^shift`, and loading `reload` at 0xFFFF gives the same counter,
leftover and count of wraps. -/
def Obligations.AdvanceMatchesCycleByCycleReference : Prop :=
  ∀ (s : State) (n : Nat) (i : Fin 4), s.Inv → (s.timer i).enable = true → (s.timer i).cascade = false →
    (s.timer i).cycles ≤ (s.timer i).mask →
    ∃ (t : State) (w : Vector Nat 4), exec (.adv n) s = .next t ∧ t.ports.wraps = some w ∧
      refRun (s.timer i).shift (s.timer i).reload n ⟨(s.timer i).cycles, (s.timer i).counter, 0⟩ =
        ⟨(t.timer i).cycles, (t.timer i).counter, w[i.val]⟩

/-- A cascade timer gains at most one tick per ADVANCE, however often its predecessor wrapped
(42_cascade.md R145, the spec's own inference; conflict C2). -/
def Obligations.CascadeGainsAtMostOneTick : Prop :=
  ∀ (s : State) (n : Nat) (i : Fin 4), (s.timer i).enable = true → (s.timer i).cascade = true →
    ∃ (t : State) (w : Vector Nat 4), exec (.adv n) s = .next t ∧ t.ports.wraps = some w ∧
      (((t.timer i).counter = (s.timer i).counter ∧ w[i.val] = 0) ∨
        ((s.timer i).counter ≠ 0xFFFF ∧ (t.timer i).counter = (s.timer i).counter + 1 ∧ w[i.val] = 0) ∨
        ((s.timer i).counter = 0xFFFF ∧ (t.timer i).counter = (s.timer i).reload ∧ w[i.val] = 1))

/-- Chaining within one call (42_cascade.md R144, the spec's own inference): whenever a timer wraps in an
ADVANCE and its successor is an enabled cascade timer, the successor counts that overflow in the same
ADVANCE and consumes the flag. -/
def Obligations.WrapReachesCascadeSuccessorInSameAdvance : Prop :=
  ∀ (s : State) (n : Nat) (j i : Fin 4), j.val + 1 = i.val →
    (s.timer i).enable = true → (s.timer i).cascade = true →
    ∃ (t : State) (w : Vector Nat 4), exec (.adv n) s = .next t ∧ t.ports.wraps = some w ∧
      (0 < w[j.val] →
        (t.timer j).overflow = false ∧
        (t.timer i).counter =
          if (s.timer i).counter = 0xFFFF then (s.timer i).reload else (s.timer i).counter + 1)

/-- A stale flag counts as an overflow now (42_cascade.md R146; the spec's decision D7): if a timer does not
step in an ADVANCE because it is disabled, and an earlier ADVANCE left its flag true, an enabled cascade
successor counts one tick and clears it, and the next ADVANCE counts nothing more from it. -/
def Obligations.StaleFlagCountsOnce : Prop :=
  ∀ (s : State) (m n : Nat) (j i : Fin 4), j.val + 1 = i.val →
    (s.timer j).enable = false → (s.timer j).overflow = true →
    (s.timer i).enable = true → (s.timer i).cascade = true → (s.timer i).counter ≠ 0xFFFF →
    ∃ t u : State, exec (.adv m) s = .next t ∧ exec (.adv n) t = .next u ∧
      (t.timer i).counter = (s.timer i).counter + 1 ∧ (t.timer j).overflow = false ∧
      (u.timer i).counter = (t.timer i).counter ∧ (u.timer j).overflow = false

/-- A cascade step reads neither `cycles` nor `shift`, `mask` or `frequency` (42_cascade.md R147, the spec's
own inference): changing them in one enabled cascade timer changes nothing else in what ADVANCE gives, and
they are kept. -/
def Obligations.CascadeIgnoresDivisorState : Prop :=
  ∀ (s : State) (n : Nat) (i : Fin 4) (f : BitVec 2) (sh mk cy : Nat),
    (s.timer i).enable = true → (s.timer i).cascade = true →
    ∃ t : State, exec (.adv n) s = .next t ∧
      exec (.adv n) { s with
          timers := s.timers.set i.val
            { s.timer i with frequency := f, shift := sh, mask := mk, cycles := cy } } =
        .next { t with
          timers := t.timers.set i.val
            { t.timer i with frequency := f, shift := sh, mask := mk, cycles := cy } }

/-- Batches small enough to wrap at most once (70_reset_and_hazards.md R190, the spec's own inference): for
an enabled free-running timer with its leftover under the mask, no more than `period * 2^shift` base
cycles give at most one wrap. -/
def Obligations.SmallBatchWrapsAtMostOnce : Prop :=
  ∀ (s : State) (n : Nat) (i : Fin 4), s.Inv → (s.timer i).enable = true → (s.timer i).cascade = false →
    (s.timer i).cycles ≤ (s.timer i).mask →
    n ≤ (0x10000 - (s.timer i).reload.toNat) * 2 ^ (s.timer i).shift →
    ∃ (t : State) (w : Vector Nat 4), exec (.adv n) s = .next t ∧ t.ports.wraps = some w ∧ w[i.val] ≤ 1

/-! ### RESET -/

/-- R26: the reset values of the control fields are "all control flags false" and frequency 0, at power-up
and after every RESET. -/
def Obligations.ResetClearsControlFields : Prop :=
  (∀ i : Fin 4, (State.reset.timer i).cascade = false ∧ (State.reset.timer i).interrupt = false ∧
    (State.reset.timer i).enable = false ∧ (State.reset.timer i).frequency = 0) ∧
  (∀ s : State, ∃ t : State, exec .reset s = .next t ∧
    ∀ i : Fin 4, (t.timer i).cascade = false ∧ (t.timer i).interrupt = false ∧
      (t.timer i).enable = false ∧ (t.timer i).frequency = 0)

/-- RESET (70_reset_and_hazards.md R180) sets every field of every timer to its reset value from any state,
so that timers after it are those at power-up (R182, D19), does not write `IF` (R181, D10), is idempotent
(the spec's own inference), and its word is 0xC0. -/
def Obligations.ResetZeroesEveryTimer : Prop :=
  (∀ s : State, ∃ t : State, exec .reset s = .next t ∧ t.IF = s.IF ∧ t.inputs = s.inputs ∧
    t.ports.irqSet = 0 ∧ t.timers = State.reset.timers ∧ exec .reset t = .next t ∧
    ∀ i : Fin 4, t.timer i =
      { id := i, counter := 0, reload := 0, frequency := 0, cascade := false, interrupt := false,
        enable := false, shift := 0, mask := 0, cycles := 0, overflow := false }) ∧
  decode ⟨0xC0, .none⟩ = .ok .reset

/-- After RESET every READ of the 16-byte window answers 0x00 (60_exceptions.md R169, the spec's own
inference). -/
def Obligations.WindowReadsZeroAfterReset : Prop :=
  ∀ (s : State) (i : Fin 4) (offset : Nat), ∃ t u : State,
    exec .reset s = .next t ∧ exec (.ofRead i.val offset) t = .next u ∧ u.ports.busRdata = some 0x00

/-! ### The whole machine -/

/-- Every well-formed operation completes in every state; an ill-formed one raises InvalidArgument with the
operation's own offending operand, the index of a READ or WRITE or the count of an ADVANCE
(60_exceptions.md R160, R161, D15): no other fault exists, and no operation is refused. -/
def Obligations.FaultExactlyOnContractViolation : Prop :=
  ∀ (i : Instr) (s : State),
    (i.wellFormed = true → ∃ t : State, exec i s = .next t) ∧
    (i.wellFormed = false →
      (∃ id : Nat, 4 ≤ id ∧ exec i s = .fault (.invalidArgument (.timerId id)) ∧
        (i = .rdCntl id ∨ i = .rdCnth id ∨ i = .rdCtrl id ∨ i = .rdUnused id ∨
          ∃ v : Byte, i = .wrRldl id v ∨ i = .wrRldh id v ∨ i = .wrCtrl id v ∨ i = .wrUnused id v)) ∨
      (∃ n : Int, n < 0 ∧ i = .adv n ∧ exec i s = .fault (.invalidArgument (.cycleCount n))))

/-- R22: the counter is read at offsets 0 and 1, no other WRITE than the enable edge changes it, and it
changes in exactly four cases (the enable edge of a control WRITE, the free-running step, the cascade step,
RESET); its reset value is 0. -/
def Obligations.CounterChangesInFourCasesOnly : Prop :=
  (∀ (i : Instr) (s t : State) (j : Fin 4), exec i s = .next t →
    (t.timer j).counter ≠ (s.timer j).counter →
      (∃ v : Byte, i = .wrCtrl j.val v ∧ (s.timer j).enable = false ∧ v.getLsbD 7 = true ∧
        (t.timer j).counter = (s.timer j).reload) ∨
      (∃ n : Nat, i = .adv n ∧ (s.timer j).enable = true ∧ (s.timer j).cascade = false) ∨
      (∃ n : Nat, i = .adv n ∧ (s.timer j).enable = true ∧ (s.timer j).cascade = true ∧ j ≠ 0 ∧
        incomingFlag n s j = true) ∨
      (i = .reset ∧ (t.timer j).counter = 0)) ∧
  (∀ (s : State) (j : Fin 4), ∃ t u : State, exec (.rdCntl j.val) s = .next t ∧
    exec (.rdCnth j.val) s = .next u ∧
    t.ports.busRdata = some ((s.timer j).counter.extractLsb' 0 8) ∧
    u.ports.busRdata = some ((s.timer j).counter.extractLsb' 8 8)) ∧
  (∀ j : Fin 4, (State.reset.timer j).counter = 0)

/-- Who writes the hidden fields (10_state.md R23, R27, R28, R30, with the decisions D6 and D7): `reload` only
the two reload WRITEs of its timer, `shift` and `mask` only its control WRITE, `cycles` only a free-running
step, and a flag becomes true only by a wrap of its timer in an ADVANCE; RESET writes them all. -/
def Obligations.HiddenFieldWriters : Prop :=
  ∀ (i : Instr) (s t : State) (j : Fin 4), exec i s = .next t → i ≠ .reset →
    ((t.timer j).reload ≠ (s.timer j).reload →
      (∃ v : Byte, i = .wrRldl j.val v) ∨ (∃ v : Byte, i = .wrRldh j.val v)) ∧
    (((t.timer j).shift ≠ (s.timer j).shift ∨ (t.timer j).mask ≠ (s.timer j).mask ∨
        (t.timer j).frequency ≠ (s.timer j).frequency ∨ (t.timer j).cascade ≠ (s.timer j).cascade ∨
        (t.timer j).interrupt ≠ (s.timer j).interrupt ∨ (t.timer j).enable ≠ (s.timer j).enable) →
      ∃ v : Byte, i = .wrCtrl j.val v) ∧
    ((t.timer j).cycles ≠ (s.timer j).cycles →
      ∃ n : Nat, i = .adv n ∧ (s.timer j).enable = true ∧ (s.timer j).cascade = false) ∧
    ((t.timer j).overflow = true → (s.timer j).overflow = false →
      ∃ (n : Nat) (w : Vector Nat 4), i = .adv n ∧ t.ports.wraps = some w ∧ 0 < w[j.val]) ∧
    ((t.timer j).overflow = false → (s.timer j).overflow = true → ∃ n : Nat, i = .adv n)

/-- The invariant (identities in place, R21; `shift` and `mask` following from `frequency`, R27; `cycles` at
most 0x3FF, R29; no request but the four bits, R162) holds at power-up. Its part on `irq_set` rests there
on the model's choice of an output before the first operation (log 2). -/
def Obligations.InvariantHoldsAtReset : Prop := State.reset.Inv

/-- Every step keeps the invariant, from every state that meets it and whatever the environment does next
(10_state.md R21, R27, R29 and 60_exceptions.md R162, the spec's own inferences and decision D2). -/
def Obligations.StepKeepsInvariant : Prop :=
  ∀ s t : State, s.Inv → step s = .next t → t.Inv

/-- If every move to come keeps the caller's contract (20_memory.md R66, 60_exceptions.md R160, R161), no run
of any length ends in a fault or a refusal, the contract is kept along it, and so is the invariant. -/
def Obligations.ContractKeepsEveryRunGoing : Prop :=
  ∀ (s : State), s.InContract → ∀ k : Nat, ∃ t : State,
    Sys2Proof.core.run k s = .next t ∧ t.InContract ∧ (s.Inv → t.Inv)

end SliceZeroStatements
end

