-- ==== Sys2Proof/Laws/State.lean ====
section
/-!
SUPPORT. One lemma per field per update of State, Pass and the timer array, so that no later proof
unfolds a record update.
-/

namespace Sys2Proof.Machine

/-! ### The timer array -/

@[simp] theorem timerAt_setTimerAt_self (v : Vector Timer 4) (i : Fin 4) (t : Timer) :
    timerAt (setTimerAt v i t) i = t := by
  simp [timerAt, setTimerAt]

theorem timerAt_setTimerAt (v : Vector Timer 4) (i j : Fin 4) (t : Timer) :
    timerAt (setTimerAt v i t) j = if i = j then t else timerAt v j := by
  simp only [timerAt, setTimerAt, Vector.getElem_set, Fin.ext_iff]

@[simp] theorem timerAt_setTimerAt_ne (v : Vector Timer 4) {i j : Fin 4} (t : Timer) (h : i ≠ j) :
    timerAt (setTimerAt v i t) j = timerAt v j := by
  rw [timerAt_setTimerAt, if_neg h]

/-- Two arrays with the same records are the same array. -/
theorem timers_ext {v w : Vector Timer 4} (h : ∀ i, timerAt v i = timerAt w i) : v = w :=
  Vector.ext fun i hi => h ⟨i, hi⟩

@[simp] theorem timerAt_initialTimers (i : Fin 4) : timerAt initialTimers i = Timer.initial i := by
  fin_cases i <;> rfl

/-! ### State -/

@[simp] theorem State.timer_mk (v : Vector Timer 4) (w : IrqWord) (p : Ports) (xs : List Input) (i : Fin 4) :
    (State.mk v w p xs).timer i = timerAt v i := rfl
theorem State.timerAt_timers (s : State) (i : Fin 4) : timerAt s.timers i = s.timer i := rfl

@[simp] theorem State.setTimer_timers (s : State) (i : Fin 4) (t : Timer) :
    (s.setTimer i t).timers = setTimerAt s.timers i t := rfl
@[simp] theorem State.setTimer_IF (s : State) (i : Fin 4) (t : Timer) : (s.setTimer i t).IF = s.IF := rfl
@[simp] theorem State.setTimer_ports (s : State) (i : Fin 4) (t : Timer) :
    (s.setTimer i t).ports = s.ports := rfl
@[simp] theorem State.setTimer_inputs (s : State) (i : Fin 4) (t : Timer) :
    (s.setTimer i t).inputs = s.inputs := rfl
@[simp] theorem State.timer_setTimer_self (s : State) (i : Fin 4) (t : Timer) :
    (s.setTimer i t).timer i = t := timerAt_setTimerAt_self ..
@[simp] theorem State.timer_setTimer_ne (s : State) {i j : Fin 4} (t : Timer) (h : i ≠ j) :
    (s.setTimer i t).timer j = s.timer j := timerAt_setTimerAt_ne _ _ h
theorem State.timer_setTimer (s : State) (i j : Fin 4) (t : Timer) :
    (s.setTimer i t).timer j = if i = j then t else s.timer j := timerAt_setTimerAt ..

@[simp] theorem State.answer_timers (s : State) (b : Byte) : (s.answer b).timers = s.timers := rfl
@[simp] theorem State.answer_IF (s : State) (b : Byte) : (s.answer b).IF = s.IF := rfl
@[simp] theorem State.answer_inputs (s : State) (b : Byte) : (s.answer b).inputs = s.inputs := rfl
@[simp] theorem State.answer_busRdata (s : State) (b : Byte) : (s.answer b).ports.busRdata = some b := rfl
@[simp] theorem State.answer_irqSet (s : State) (b : Byte) : (s.answer b).ports.irqSet = 0 := rfl
@[simp] theorem State.answer_wraps (s : State) (b : Byte) : (s.answer b).ports.wraps = none := rfl
@[simp] theorem State.timer_answer (s : State) (b : Byte) (i : Fin 4) :
    (s.answer b).timer i = s.timer i := rfl

@[simp] theorem State.quiet_timers (s : State) : s.quiet.timers = s.timers := rfl
@[simp] theorem State.quiet_IF (s : State) : s.quiet.IF = s.IF := rfl
@[simp] theorem State.quiet_inputs (s : State) : s.quiet.inputs = s.inputs := rfl
@[simp] theorem State.quiet_busRdata (s : State) : s.quiet.ports.busRdata = none := rfl
@[simp] theorem State.quiet_irqSet (s : State) : s.quiet.ports.irqSet = 0 := rfl
@[simp] theorem State.quiet_wraps (s : State) : s.quiet.ports.wraps = none := rfl
@[simp] theorem State.timer_quiet (s : State) (i : Fin 4) : s.quiet.timer i = s.timer i := rfl

@[simp] theorem State.reset_timer (i : Fin 4) : State.reset.timer i = Timer.initial i :=
  timerAt_initialTimers i
@[simp] theorem State.reset_IF : State.reset.IF = 0 := rfl
@[simp] theorem State.reset_irqSet : State.reset.ports.irqSet = 0 := rfl
@[simp] theorem State.reset_inputs : State.reset.inputs = [] := rfl

/-! ### Pass -/

@[simp] theorem Pass.setTimer_IF (p : Pass) (i : Fin 4) (t : Timer) : (p.setTimer i t).IF = p.IF := rfl
@[simp] theorem Pass.setTimer_irqSet (p : Pass) (i : Fin 4) (t : Timer) :
    (p.setTimer i t).irqSet = p.irqSet := rfl
@[simp] theorem Pass.setTimer_wraps (p : Pass) (i : Fin 4) (t : Timer) :
    (p.setTimer i t).wraps = p.wraps := rfl
@[simp] theorem Pass.timer_setTimer_self (p : Pass) (i : Fin 4) (t : Timer) :
    (p.setTimer i t).timer i = t := timerAt_setTimerAt_self ..
@[simp] theorem Pass.timer_setTimer_ne (p : Pass) {i j : Fin 4} (t : Timer) (h : i ≠ j) :
    (p.setTimer i t).timer j = p.timer j := timerAt_setTimerAt_ne _ _ h
theorem Pass.timer_setTimer (p : Pass) (i j : Fin 4) (t : Timer) :
    (p.setTimer i t).timer j = if i = j then t else p.timer j := timerAt_setTimerAt ..

@[simp] theorem Pass.setWraps_timers (p : Pass) (i : Fin 4) (w : Nat) :
    (p.setWraps i w).timers = p.timers := rfl
@[simp] theorem Pass.timer_setWraps (p : Pass) (i j : Fin 4) (w : Nat) :
    (p.setWraps i w).timer j = p.timer j := rfl
@[simp] theorem Pass.setWraps_IF (p : Pass) (i : Fin 4) (w : Nat) : (p.setWraps i w).IF = p.IF := rfl
@[simp] theorem Pass.setWraps_irqSet (p : Pass) (i : Fin 4) (w : Nat) :
    (p.setWraps i w).irqSet = p.irqSet := rfl
@[simp] theorem Pass.setWraps_wraps (p : Pass) (i : Fin 4) (w : Nat) :
    (p.setWraps i w).wraps = p.wraps.set i.val w := rfl

@[simp] theorem Pass.raiseIRQ_timers (p : Pass) (i : Fin 4) : (p.raiseIRQ i).timers = p.timers := rfl
@[simp] theorem Pass.raiseIRQ_wraps (p : Pass) (i : Fin 4) : (p.raiseIRQ i).wraps = p.wraps := rfl
@[simp] theorem Pass.raiseIRQ_IF (p : Pass) (i : Fin 4) :
    (p.raiseIRQ i).IF = p.IF ||| requestBit i := rfl
@[simp] theorem Pass.raiseIRQ_irqSet (p : Pass) (i : Fin 4) :
    (p.raiseIRQ i).irqSet = p.irqSet ||| requestBit i := rfl

@[simp] theorem Pass.raiseIRQIf_timers (p : Pass) (i : Fin 4) (c : Bool) :
    (p.raiseIRQIf i c).timers = p.timers := by cases c <;> rfl
@[simp] theorem Pass.timer_raiseIRQIf (p : Pass) (i j : Fin 4) (c : Bool) :
    (p.raiseIRQIf i c).timer j = p.timer j := by cases c <;> rfl
@[simp] theorem Pass.raiseIRQIf_wraps (p : Pass) (i : Fin 4) (c : Bool) :
    (p.raiseIRQIf i c).wraps = p.wraps := by cases c <;> rfl
theorem Pass.raiseIRQIf_IF (p : Pass) (i : Fin 4) (c : Bool) :
    (p.raiseIRQIf i c).IF = p.IF ||| (if c then requestBit i else 0) := by
  cases c <;> simp [Pass.raiseIRQIf]
theorem Pass.raiseIRQIf_irqSet (p : Pass) (i : Fin 4) (c : Bool) :
    (p.raiseIRQIf i c).irqSet = p.irqSet ||| (if c then requestBit i else 0) := by
  cases c <;> simp [Pass.raiseIRQIf]

end Sys2Proof.Machine
end

