-- ==== Sys2Proof/Laws/Ops.lean ====
section
/-!
SUPPORT. What the shared operations of Machine/Ops.lean can do, said once: the index check of a READ or
WRITE, and the four request bits.
-/

namespace Sys2Proof.Config

/-- IRQ_WIDTH >= 16 (00_scope.md R8). -/
theorem sixteen_le_irqWidth : 16 ≤ irqWidth := by simp [irqWidth]

/-- IRQ_BASE + 3 < IRQ_WIDTH (00_scope.md R8). -/
theorem irqBase_add_three_lt : irqBase + 3 < irqWidth := by
  have := irqBaseFin.isLt
  simp only [irqBase, irqWidth]
  omega

end Sys2Proof.Config

namespace Sys2Proof.Machine

/-! ### The index check (R100) -/

theorem withTimer_of_lt {id : Nat} (h : id < 4) (k : Fin 4 → Host.Outcome State Fault Refusal) :
    withTimer id k = k ⟨id, h⟩ := dif_pos h

@[simp] theorem withTimer_val (i : Fin 4) (k : Fin 4 → Host.Outcome State Fault Refusal) :
    withTimer i.val k = k i := dif_pos i.isLt

theorem withTimer_of_ge {id : Nat} (h : 4 ≤ id) (k : Fin 4 → Host.Outcome State Fault Refusal) :
    withTimer id k = .fault (.invalidArgument (.timerId id)) := dif_neg (by omega)

/-- If the check lets a next state through, the index was in 0..3 and the operation ran. -/
theorem withTimer_next {id : Nat} {k : Fin 4 → Host.Outcome State Fault Refusal} {t : State}
    (h : withTimer id k = .next t) : ∃ i : Fin 4, id = i.val ∧ k i = .next t := by
  by_cases hid : id < 4
  · exact ⟨⟨id, hid⟩, rfl, by rwa [withTimer_of_lt hid] at h⟩
  · rw [withTimer_of_ge (by omega)] at h
    cases h

/-! ### The request bits (R162) -/

theorem irqBase_add_lt (i : Fin 4) : Config.irqBase + i.val < Config.irqWidth := by
  have := Config.irqBase_add_three_lt
  have := i.isLt
  omega

/-- Bit `k` of timer `i`'s request mask is bit IRQ_BASE + i and no other. -/
theorem requestBit_getLsbD (i : Fin 4) (k : Nat) :
    (requestBit i).getLsbD k = decide (k = Config.irqBase + i.val) := by
  have := irqBase_add_lt i
  rw [requestBit, BitVec.getLsbD_twoPow]
  by_cases h : k = Config.irqBase + i.val
  · subst h; simp [this]
  · have h' : ¬Config.irqBase + i.val = k := fun h'' => h h''.symm
    simp [h, h']

end Sys2Proof.Machine
end

