-- ==== Sys2Proof/Laws/Advance.lean ====
section
/-!
SUPPORT. ADVANCE said once: the free-running step in closed form, one visit, and the whole pass
(`pass_timer`, `pass_wraps`, `pass_IF`), which later proofs cite instead of unfolding the pass.
-/

namespace Sys2Proof.Machine

/-! ### The free-running step (R124 to R130) -/

theorem spanToWrap_pos (t : Timer) : 0 < spanToWrap t := by
  have := t.counter.isLt
  simp only [spanToWrap]; omega

/-- The period is never 0, so nothing divides by zero (R130). -/
theorem wrapPeriod_pos (t : Timer) : 0 < wrapPeriod t := by
  have := t.reload.isLt
  simp only [wrapPeriod]; omega

/-- The counter a free-running step leaves, as a natural number: no truncation happens (R130). -/
def freeCounter (t : Timer) (n : Nat) : Nat :=
  if ticksOf t n < spanToWrap t then t.counter.toNat + ticksOf t n
  else t.reload.toNat + (ticksOf t n - spanToWrap t) % wrapPeriod t

/-- How often a free-running step wraps (R127, R129). -/
def freeWraps (t : Timer) (n : Nat) : Nat :=
  if ticksOf t n < spanToWrap t then 0
  else 1 + (ticksOf t n - spanToWrap t) / wrapPeriod t

theorem freeCounter_lt (t : Timer) (n : Nat) : freeCounter t n < 0x10000 := by
  have h1 := t.counter.isLt
  have h2 := t.reload.isLt
  have h3 := Nat.mod_lt (ticksOf t n - spanToWrap t) (wrapPeriod_pos t)
  unfold freeCounter
  split
  · simp only [spanToWrap] at *; omega
  · simp only [wrapPeriod] at *; omega

/-- The free-running step in closed form. -/
theorem freeRun_eq (t : Timer) (n : Nat) :
    freeRun t n =
      ({ t with
          counter := BitVec.ofNat 16 (freeCounter t n)
          overflow := freeOverflow t n
          cycles := available t n &&& t.mask }, freeWraps t n) := by
  unfold freeRun freeCounter freeWraps
  by_cases h : ticksOf t n < spanToWrap t
  · simp [h]
  · by_cases hp : wrapPeriod t ≤ ticksOf t n - spanToWrap t
    · simp [h, hp]
    · have hlt : ticksOf t n - spanToWrap t < wrapPeriod t := by omega
      simp [h, hp, Nat.mod_eq_of_lt hlt, Nat.div_eq_of_lt hlt]

theorem freeOverflow_iff (t : Timer) (n : Nat) : freeOverflow t n = true ↔ spanToWrap t ≤ ticksOf t n := by
  simp [freeOverflow]

/-- The step wraps at least once exactly when it leaves the flag true (R129). -/
theorem freeWraps_pos (t : Timer) (n : Nat) : 0 < freeWraps t n ↔ freeOverflow t n = true := by
  rw [freeOverflow_iff, freeWraps]
  generalize (ticksOf t n - spanToWrap t) / wrapPeriod t = q
  split <;> constructor <;> intro h <;> omega

/-! ### One visit -/

/-- What a visit makes of timer `t` when its predecessor's flag is `prev`: its record and `wraps[i]`
(R122, R123, R142, R143). -/
def visited (n : Nat) (prev : Bool) (t : Timer) : Timer × Nat :=
  if t.freeRunning then freeRun t n
  else if t.cascading && prev then (cascadeTick t, if cascadeOverflow t then 1 else 0)
  else (t, 0)

/-- The predecessor's flag in the pass; timer 0 has none (R141). -/
def Pass.prevFlag (p : Pass) (i : Fin 4) : Bool :=
  if i.val = 0 then false else (p.timer ⟨i.val - 1, by omega⟩).overflow

/-- The successor's cascade step clears the flag it read (R143). -/
def consume (c : Bool) (t : Timer) : Timer := { t with overflow := t.overflow && !c }

@[simp] theorem consume_false (t : Timer) : consume false t = t := by cases t; simp [consume]

theorem consume_true (t : Timer) : consume true t = { t with overflow := false } := by simp [consume]

theorem visited_overflow (n : Nat) (prev : Bool) (t : Timer) :
    (visited n prev t).1.overflow = flagAfterVisit n prev t := by
  unfold visited flagAfterVisit Timer.freeRunning Timer.cascading
  cases t.enable <;> cases t.cascade <;> cases prev <;> simp [freeRun_eq, cascadeTick]

/-- The visit of an enabled free-running timer. -/
theorem visit_free {p : Pass} {i : Fin 4} (h : (p.timer i).freeRunning = true) (n : Nat) :
    visit n p i = freeStep i n p := by
  simp only [Timer.freeRunning, Bool.and_eq_true, Bool.not_eq_true'] at h
  simp [visit, h.1, h.2]

/-- The visit of an enabled cascade timer. -/
theorem visit_cascade {p : Pass} {i : Fin 4} (h : (p.timer i).cascading = true) (n : Nat) :
    visit n p i = cascadeStep i p := by
  simp only [Timer.cascading, Bool.and_eq_true] at h
  simp [visit, h.1, h.2]

/-- The visit of a disabled timer (R122). -/
theorem visit_disabled {p : Pass} {i : Fin 4} (h : (p.timer i).enable = false) (n : Nat) :
    visit n p i = p := by
  simp [visit, h]

theorem Timer.cases_step (t : Timer) :
    t.enable = false ∨ t.freeRunning = true ∨ t.cascading = true := by
  simp only [Timer.freeRunning, Timer.cascading]
  cases t.enable <;> cases t.cascade <;> simp

theorem Timer.not_cascading_of_free {t : Timer} (h : t.freeRunning = true) : t.cascading = false := by
  simp only [Timer.freeRunning, Timer.cascading] at *
  cases h1 : t.enable <;> cases h2 : t.cascade <;> simp_all

theorem Timer.not_free_of_cascading {t : Timer} (h : t.cascading = true) : t.freeRunning = false := by
  simp only [Timer.freeRunning, Timer.cascading] at *
  cases h1 : t.enable <;> cases h2 : t.cascade <;> simp_all

theorem Timer.of_disabled {t : Timer} (h : t.enable = false) :
    t.freeRunning = false ∧ t.cascading = false := by
  simp [Timer.freeRunning, Timer.cascading, h]

theorem Timer.freeRunning_iff {t : Timer} : t.freeRunning = true ↔ t.enable = true ∧ t.cascade = false := by
  simp [Timer.freeRunning]

theorem Timer.cascading_iff {t : Timer} : t.cascading = true ↔ t.enable = true ∧ t.cascade = true := by
  simp [Timer.cascading]

/-- A disabled timer is skipped (R122). -/
theorem visited_disabled {t : Timer} (h : t.enable = false) (n : Nat) (prev : Bool) :
    visited n prev t = (t, 0) := by
  simp [visited, Timer.of_disabled h]

/-- An enabled timer without `cascade` runs free (R123). -/
theorem visited_free {t : Timer} (h1 : t.enable = true) (h2 : t.cascade = false) (n : Nat) (prev : Bool) :
    visited n prev t = freeRun t n := by
  simp [visited, Timer.freeRunning_iff.2 ⟨h1, h2⟩]

/-- A cascade timer that finds its predecessor's flag true (R143). -/
theorem visited_cascade_true {t : Timer} (h1 : t.enable = true) (h2 : t.cascade = true) (n : Nat) :
    visited n true t = (cascadeTick t, if cascadeOverflow t then 1 else 0) := by
  simp [visited, Timer.cascading_iff.2 ⟨h1, h2⟩,
    Timer.not_free_of_cascading (Timer.cascading_iff.2 ⟨h1, h2⟩)]

/-- A cascade timer that finds it false, or has no predecessor (R141, R142). -/
theorem visited_cascade_false {t : Timer} (h1 : t.enable = true) (h2 : t.cascade = true) (n : Nat) :
    visited n false t = (t, 0) := by
  simp [visited, Timer.not_free_of_cascading (Timer.cascading_iff.2 ⟨h1, h2⟩)]

/-- What the cascade step of timer `i` leaves (R140 to R143), from the predecessor's flag alone. -/
theorem cascadeStep_eq (i : Fin 4) (p : Pass) :
    cascadeStep i p =
      if p.prevFlag i then
        (((p.setTimer i (cascadeTick (p.timer i))).raiseIRQIf i
            (cascadeOverflow (p.timer i) && (p.timer i).interrupt)).setTimer ⟨i.val - 1, by omega⟩
          (consume true (p.timer ⟨i.val - 1, by omega⟩))).setWraps i
          (if cascadeOverflow (p.timer i) then 1 else 0)
      else p := by
  unfold cascadeStep Pass.prevFlag
  by_cases h0 : i.val = 0
  · simp [h0]
  · simp only [h0, if_false, consume_true]
    rfl

theorem pred_ne {i : Fin 4} (h : i.val ≠ 0) : (⟨i.val - 1, by omega⟩ : Fin 4) ≠ i := by
  intro h'
  have := congrArg Fin.val h'
  simp at this
  omega

theorem prevFlag_pos {p : Pass} {i : Fin 4} (h : p.prevFlag i = true) : i.val ≠ 0 := by
  intro h0
  simp [Pass.prevFlag, h0] at h

/-- A visit writes the visited timer's record. -/
theorem visit_timer_self (n : Nat) (p : Pass) (i : Fin 4) :
    (visit n p i).timer i = (visited n (p.prevFlag i) (p.timer i)).1 := by
  rcases (p.timer i).cases_step with h | h | h
  · simp [visit_disabled h, visited, Timer.of_disabled h]
  · simp [visit_free h, visited, h, freeStep]
  · rw [visit_cascade h, cascadeStep_eq]
    by_cases hp : p.prevFlag i = true
    · simp [hp, visited, h, Timer.not_free_of_cascading h,
        Pass.timer_setTimer_ne _ _ (pred_ne (prevFlag_pos hp))]
    · simp [hp, visited, Timer.not_free_of_cascading h]

/-- A visit leaves every other timer alone, but a cascade step consumes the predecessor's flag. -/
theorem visit_timer_ne (n : Nat) (p : Pass) {i j : Fin 4} (hij : i ≠ j) :
    (visit n p i).timer j = consume (decide (j.val + 1 = i.val) && (p.timer i).cascading) (p.timer j) := by
  rcases (p.timer i).cases_step with h | h | h
  · simp [visit_disabled h, (Timer.of_disabled h).2]
  · simp [visit_free h, Timer.not_cascading_of_free h, freeStep, hij]
  · rw [visit_cascade h, cascadeStep_eq, h, Bool.and_true]
    by_cases hp : p.prevFlag i = true
    · have h0 := prevFlag_pos hp
      rw [if_pos hp, Pass.timer_setWraps, Pass.timer_setTimer, Pass.timer_raiseIRQIf,
        Pass.timer_setTimer_ne _ _ hij]
      by_cases hj : j.val + 1 = i.val
      · have : (⟨i.val - 1, by omega⟩ : Fin 4) = j := Fin.ext (by simp; omega)
        simp [this, hj]
      · have : (⟨i.val - 1, by omega⟩ : Fin 4) ≠ j := fun h' => hj (by rw [← h']; simp; omega)
        simp [this, hj]
    · rw [if_neg hp]
      by_cases hj : j.val + 1 = i.val
      · have hji : (⟨i.val - 1, by omega⟩ : Fin 4) = j := Fin.ext (by simp; omega)
        have hf : (p.timer j).overflow = false := by
          have h0 : i.val ≠ 0 := by omega
          simpa [Pass.prevFlag, h0, hji] using hp
        simp only [hj, decide_true, consume]
        rw [hf]
        simp [← hf]
      · simp [hj]

/-- A visit writes `wraps[i]` and no other count, when no count was given for `i` before. -/
theorem visit_wraps (n : Nat) (p : Pass) (i j : Fin 4) (h0 : p.wraps[i.val] = 0) :
    (visit n p i).wraps[j.val] =
      if i = j then (visited n (p.prevFlag i) (p.timer i)).2 else p.wraps[j.val] := by
  rcases (p.timer i).cases_step with h | h | h
  · rw [visit_disabled h]
    split
    · subst i; simp [visited, Timer.of_disabled h, h0]
    · rfl
  · simp [visit_free h, visited, h, freeStep, Vector.getElem_set, Fin.ext_iff]
  · rw [visit_cascade h, cascadeStep_eq]
    by_cases hp : p.prevFlag i = true
    · simp [hp, visited, h, Timer.not_free_of_cascading h, Vector.getElem_set, Fin.ext_iff]
    · rw [if_neg hp]
      split
      · subst i; simp [visited, Timer.not_free_of_cascading h, hp, h0]
      · rfl

/-- The request a visit makes: one bit, for a wrap with `interrupt` set (R163). -/
def visitRequest (n : Nat) (prev : Bool) (t : Timer) (i : Fin 4) : IrqWord :=
  if decide (0 < (visited n prev t).2) && t.interrupt then requestBit i else 0

theorem visit_IF (n : Nat) (p : Pass) (i : Fin 4) :
    (visit n p i).IF = p.IF ||| visitRequest n (p.prevFlag i) (p.timer i) i ∧
      (visit n p i).irqSet = p.irqSet ||| visitRequest n (p.prevFlag i) (p.timer i) i := by
  rcases (p.timer i).cases_step with h | h | h
  · simp [visit_disabled h, visitRequest, visited, Timer.of_disabled h]
  · have hw : decide (0 < freeWraps (p.timer i) n) = freeOverflow (p.timer i) n := by
      rw [Bool.eq_iff_iff, decide_eq_true_iff, freeWraps_pos]
    simp [visit_free h, visitRequest, visited, h, freeStep, Pass.raiseIRQIf_IF, Pass.raiseIRQIf_irqSet,
      freeRun_eq, hw]
  · rw [visit_cascade h, cascadeStep_eq]
    by_cases hp : p.prevFlag i = true
    · cases hc : cascadeOverflow (p.timer i) <;>
        simp [hp, visitRequest, visited, h, hc, Timer.not_free_of_cascading h, Pass.raiseIRQIf_IF,
          Pass.raiseIRQIf_irqSet]
    · simp [hp, visitRequest, visited, Timer.not_free_of_cascading h]

/-! ### The whole pass -/

/-- The pass after the visits of timers 0 to `k - 1`. -/
theorem passOf_eq (n : Nat) (p : Pass) :
    passOf n p = visit n (visit n (visit n (visit n p 0) 1) 2) 3 := rfl

theorem startPass_timer (s : State) (i : Fin 4) : (startPass s).timer i = s.timer i := rfl

/-- A visit of timer `i` does not touch a timer that is neither `i` nor its predecessor. -/
theorem visit_timer_far (n : Nat) (p : Pass) {i j : Fin 4} (hij : i ≠ j) (hj : j.val + 1 ≠ i.val) :
    (visit n p i).timer j = p.timer j := by
  rw [visit_timer_ne n p hij]
  simp [hj]

/-- What timers 1, 2 and 3 find when they are visited: their own record as before the pass, and the
predecessor's flag after its visit. -/
theorem pass_found (n : Nat) (s : State) :
    let p0 := startPass s
    let p1 := visit n p0 0
    let p2 := visit n p1 1
    let p3 := visit n p2 2
    (p0.timer 0 = s.timer 0 ∧ p0.prevFlag 0 = incomingFlag n s 0) ∧
      (p1.timer 1 = s.timer 1 ∧ p1.prevFlag 1 = incomingFlag n s 1) ∧
      (p2.timer 2 = s.timer 2 ∧ p2.prevFlag 2 = incomingFlag n s 2) ∧
      (p3.timer 3 = s.timer 3 ∧ p3.prevFlag 3 = incomingFlag n s 3) := by
  intro p0 p1 p2 p3
  have a0 : p0.prevFlag 0 = incomingFlag n s 0 := rfl
  have t1 : p1.timer 1 = s.timer 1 := visit_timer_far n p0 (by decide) (by decide)
  have t2 : p2.timer 2 = s.timer 2 := by
    rw [visit_timer_far n p1 (by decide) (by decide), visit_timer_far n p0 (by decide) (by decide)]; rfl
  have t3 : p3.timer 3 = s.timer 3 := by
    rw [visit_timer_far n p2 (by decide) (by decide), visit_timer_far n p1 (by decide) (by decide),
      visit_timer_far n p0 (by decide) (by decide)]; rfl
  have a1 : p1.prevFlag 1 = incomingFlag n s 1 := by
    change ((visit n p0 0).timer 0).overflow = _
    rw [visit_timer_self, visited_overflow]; rfl
  have a2 : p2.prevFlag 2 = incomingFlag n s 2 := by
    change ((visit n p1 1).timer 1).overflow = _
    rw [visit_timer_self, visited_overflow, t1, a1]; rfl
  have a3 : p3.prevFlag 3 = incomingFlag n s 3 := by
    change ((visit n p2 2).timer 2).overflow = _
    rw [visit_timer_self, visited_overflow, t2, a2]; rfl
  exact ⟨⟨rfl, a0⟩, ⟨t1, a1⟩, ⟨t2, a2⟩, t3, a3⟩

/-- Every timer after one ADVANCE: the visited record, its flag consumed if its successor is an enabled
cascade timer. -/
theorem pass_timer (n : Nat) (s : State) (i : Fin 4) :
    (passOf n (startPass s)).timer i =
      consume (successorCascades s i) (visited n (incomingFlag n s i) (s.timer i)).1 := by
  obtain ⟨⟨t0, a0⟩, ⟨t1, a1⟩, ⟨t2, a2⟩, t3, a3⟩ := pass_found n s
  rw [passOf_eq]
  match i with
  | 0 =>
    rw [visit_timer_far _ _ (by decide) (by decide), visit_timer_far _ _ (by decide) (by decide),
      visit_timer_ne _ _ (by decide), visit_timer_self, t0, a0, t1]
    rfl
  | 1 =>
    rw [visit_timer_far _ _ (by decide) (by decide), visit_timer_ne _ _ (by decide), visit_timer_self,
      t1, a1, t2]
    rfl
  | 2 => rw [visit_timer_ne _ _ (by decide), visit_timer_self, t2, a2, t3]; rfl
  | 3 => rw [visit_timer_self, t3, a3]; exact (consume_false _).symm

/-- The overflow counts of one ADVANCE (R129, R143). -/
theorem pass_wraps (n : Nat) (s : State) (i : Fin 4) :
    (passOf n (startPass s)).wraps[i.val] = (visited n (incomingFlag n s i) (s.timer i)).2 := by
  obtain ⟨⟨t0, a0⟩, ⟨t1, a1⟩, ⟨t2, a2⟩, t3, a3⟩ := pass_found n s
  have z0 : ∀ j : Fin 4, (startPass s).wraps[j.val] = 0 := by intro j; simp [startPass]
  have z1 : ∀ j : Fin 4, 0 < j.val → (visit n (startPass s) 0).wraps[j.val] = 0 := by
    intro j hj
    rw [visit_wraps _ _ _ _ (z0 0), if_neg (by intro h; subst h; simp at hj), z0]
  have z2 : ∀ j : Fin 4, 1 < j.val → (visit n (visit n (startPass s) 0) 1).wraps[j.val] = 0 := by
    intro j hj
    rw [visit_wraps _ _ _ _ (z1 1 (by decide)), if_neg (by intro h; subst h; simp at hj), z1 j (by omega)]
  have z3 : (visit n (visit n (visit n (startPass s) 0) 1) 2).wraps[(3 : Fin 4).val] = 0 := by
    rw [visit_wraps _ _ _ _ (z2 2 (by decide)), if_neg (by decide), z2 3 (by decide)]
  rw [passOf_eq, visit_wraps _ _ _ _ z3]
  match i with
  | 0 =>
    rw [if_neg (by decide), visit_wraps _ _ _ _ (z2 2 (by decide)), if_neg (by decide),
      visit_wraps _ _ _ _ (z1 1 (by decide)), if_neg (by decide), visit_wraps _ _ _ _ (z0 0), if_pos rfl,
      t0, a0]
  | 1 =>
    rw [if_neg (by decide), visit_wraps _ _ _ _ (z2 2 (by decide)), if_neg (by decide),
      visit_wraps _ _ _ _ (z1 1 (by decide)), if_pos rfl, t1, a1]
  | 2 => rw [if_neg (by decide), visit_wraps _ _ _ _ (z2 2 (by decide)), if_pos rfl, t2, a2]
  | 3 => rw [if_pos rfl, t3, a3]

/-- All requests of one ADVANCE, in index order. -/
def passRequests (n : Nat) (s : State) : IrqWord :=
  visitRequest n (incomingFlag n s 0) (s.timer 0) 0 ||| visitRequest n (incomingFlag n s 1) (s.timer 1) 1 |||
    visitRequest n (incomingFlag n s 2) (s.timer 2) 2 ||| visitRequest n (incomingFlag n s 3) (s.timer 3) 3

theorem pass_irqSet (n : Nat) (s : State) : (passOf n (startPass s)).irqSet = passRequests n s := by
  obtain ⟨⟨t0, a0⟩, ⟨t1, a1⟩, ⟨t2, a2⟩, t3, a3⟩ := pass_found n s
  rw [passOf_eq, (visit_IF _ _ _).2, (visit_IF _ _ _).2, (visit_IF _ _ _).2, (visit_IF _ _ _).2, t0, t1, t2,
    t3, a0, a1, a2, a3]
  simp [passRequests, startPass]

/-- `IF` gains exactly the requests of the pass (R162). -/
theorem pass_IF (n : Nat) (s : State) : (passOf n (startPass s)).IF = s.IF ||| passRequests n s := by
  obtain ⟨⟨t0, a0⟩, ⟨t1, a1⟩, ⟨t2, a2⟩, t3, a3⟩ := pass_found n s
  rw [passOf_eq, (visit_IF _ _ _).1, (visit_IF _ _ _).1, (visit_IF _ _ _).1, (visit_IF _ _ _).1, t0, t1, t2,
    t3, a0, a1, a2, a3]
  simp [passRequests, startPass, BitVec.or_assoc]

theorem visitRequest_getLsbD (n : Nat) (prev : Bool) (t : Timer) (i : Fin 4) (k : Nat) :
    (visitRequest n prev t i).getLsbD k = true ↔
      k = Config.irqBase + i.val ∧ t.interrupt = true ∧ 0 < (visited n prev t).2 := by
  unfold visitRequest
  split <;> rename_i h
  · simp only [Bool.and_eq_true, decide_eq_true_iff] at h
    simp [requestBit_getLsbD, h.1, h.2]
  · simp only [Bool.and_eq_true, decide_eq_true_iff] at h
    simp only [BitVec.ofNat_eq_ofNat, BitVec.getLsbD_zero, Bool.false_eq_true, false_iff]
    tauto

/-- Bit `k` of the requests is set exactly when `k` is the request bit of a timer that wrapped with
`interrupt` set (R163). -/
theorem passRequests_getLsbD (n : Nat) (s : State) (k : Nat) :
    (passRequests n s).getLsbD k = true ↔
      ∃ i : Fin 4, k = Config.irqBase + i.val ∧ (s.timer i).interrupt = true ∧
        0 < (visited n (incomingFlag n s i) (s.timer i)).2 := by
  simp only [passRequests, BitVec.getLsbD_or, Bool.or_eq_true, visitRequest_getLsbD, Fin.exists_fin_succ,
    Fin.exists_fin_zero]
  simp only [or_assoc, or_false]
  rfl

/-- A visit that counts a wrap leaves the flag true until the successor is visited (R126, R143). -/
theorem flagAfterVisit_of_wraps (n : Nat) (prev : Bool) (t : Timer) (h : 0 < (visited n prev t).2) :
    flagAfterVisit n prev t = true := by
  rcases t.cases_step with h' | h' | h'
  · rw [visited_disabled h'] at h; simp at h
  · obtain ⟨a, b⟩ := Timer.freeRunning_iff.1 h'
    rw [visited_free a b, freeRun_eq, freeWraps_pos] at h
    simp [flagAfterVisit, a, b, h]
  · obtain ⟨a, b⟩ := Timer.cascading_iff.1 h'
    cases prev
    · rw [visited_cascade_false a b] at h; simp at h
    · rw [visited_cascade_true a b] at h
      cases hc : cascadeOverflow t
      · simp [hc] at h
      · simp [flagAfterVisit, a, b, hc]

end Sys2Proof.Machine
end

