-- ==== Sys2Proof/Laws/Decode.lean ====
section
/-!
SUPPORT. The fields of a command word and the two readings of a register offset, one lemma each.
-/

namespace Sys2Proof

/-- The fields of an assembled command word (30_encoding.md R70, R71). -/
theorem commandWord_fields (k : Kind) (id offset : Nat) (hid : id < 4) (hoff : offset < 4) :
    kindOf (commandWord k id offset) = k ∧ idOf (commandWord k id offset) = id ∧
      offsetOf (commandWord k id offset) = offset := by
  cases k <;> interval_cases id <;> interval_cases offset <;> decide

/-- A READ or WRITE word with its reserved bits zero is not reserved (R72). -/
theorem isReserved_bus (k : Kind) (hk : k = .read ∨ k = .write) (id offset : Nat) (hid : id < 4)
    (hoff : offset < 4) : isReserved (commandWord k id offset) = false := by
  rcases hk with rfl | rfl <;> interval_cases id <;> interval_cases offset <;> decide

@[simp] theorem isReserved_advance : isReserved (commandWord .advance 0 0) = false := by decide
@[simp] theorem isReserved_reset : isReserved (commandWord .reset 0 0) = false := by decide

/-- Every READ word decodes to the READ of its fields (R71). -/
theorem decode_read_word {id offset : Nat} (hid : id < 4) (hoff : offset < 4) :
    decode ⟨commandWord .read id offset, .none⟩ = .ok (.ofRead id offset) := by
  obtain ⟨h1, h2, h3⟩ := commandWord_fields .read id offset hid hoff
  simp [decode, isReserved_bus .read (.inl rfl) id offset hid hoff, h1, h2, h3]

/-- Every WRITE word decodes to the WRITE of its fields and its payload (R71). -/
theorem decode_write_word {id offset : Nat} (hid : id < 4) (hoff : offset < 4) (v : Byte) :
    decode ⟨commandWord .write id offset, .byte v⟩ = .ok (.ofWrite id offset v) := by
  obtain ⟨h1, h2, h3⟩ := commandWord_fields .write id offset hid hoff
  simp [decode, isReserved_bus .write (.inr rfl) id offset hid hoff, h1, h2, h3]

/-- A word that is not reserved is assembled from its own fields, and an ADVANCE or RESET word has its
low bits zero (R72). -/
theorem commandWord_of_fields (w : Byte) (h : isReserved w = false) :
    commandWord (kindOf w) (idOf w) (offsetOf w) = w ∧
      (kindOf w = .advance ∨ kindOf w = .reset → idOf w = 0 ∧ offsetOf w = 0) := by
  revert w; decide

theorem idOf_lt (w : Byte) : idOf w < 4 := (w.extractLsb' 2 2).isLt
theorem offsetOf_lt (w : Byte) : offsetOf w < 4 := (w.extractLsb' 0 2).isLt

/-- Every offset from 3 on is offset 3 (R73). -/
theorem Instr.ofRead_of_ge {offset : Nat} (h : 3 ≤ offset) (id : Nat) :
    Instr.ofRead id offset = .rdUnused id := by
  match offset, h with
  | k + 3, _ => rfl

theorem Instr.ofWrite_of_ge {offset : Nat} (h : 3 ≤ offset) (id : Nat) (v : Byte) :
    Instr.ofWrite id offset v = .wrUnused id v := by
  match offset, h with
  | k + 3, _ => rfl

@[simp] theorem Instr.wellFormed_ofRead (id offset : Nat) :
    (Instr.ofRead id offset).wellFormed = validId id := by
  unfold Instr.ofRead; split <;> rfl

@[simp] theorem Instr.wellFormed_ofWrite (id offset : Nat) (v : Byte) :
    (Instr.ofWrite id offset v).wellFormed = validId id := by
  unfold Instr.ofWrite; split <;> rfl

/-- Everything a command that decodes can be: the word is not reserved, and its kind fixes the payload
and the operation (R71). -/
theorem decode_ok {c : Command} {i : Instr} (h : decode c = .ok i) :
    isReserved c.word = false ∧
      ((kindOf c.word = .read ∧ c.payload = .none ∧ i = .ofRead (idOf c.word) (offsetOf c.word)) ∨
        (∃ v, kindOf c.word = .write ∧ c.payload = .byte v ∧
          i = .ofWrite (idOf c.word) (offsetOf c.word) v) ∨
        (∃ n : Nat, kindOf c.word = .advance ∧ c.payload = .count n ∧ i = .adv n) ∨
        (kindOf c.word = .reset ∧ c.payload = .none ∧ i = .reset)) := by
  unfold decode at h
  split at h
  · cases h
  · rename_i hr
    refine ⟨by simpa using hr, ?_⟩
    split at h <;> cases h
    · exact .inl ⟨‹_›, ‹_›, rfl⟩
    · exact .inr (.inl ⟨_, ‹_›, ‹_›, rfl⟩)
    · exact .inr (.inr (.inl ⟨_, ‹_›, ‹_›, rfl⟩))
    · exact .inr (.inr (.inr ⟨‹_›, ‹_›, rfl⟩))

/-- What decodes is well-formed: the command word cannot spell a violation (R73, 60_exceptions.md
R160). -/
theorem wellFormed_of_decode {c : Command} {i : Instr} (h : decode c = .ok i) : i.wellFormed = true := by
  obtain ⟨-, ⟨-, -, rfl⟩ | ⟨v, -, -, rfl⟩ | ⟨n, -, -, rfl⟩ | ⟨-, -, rfl⟩⟩ := decode_ok h
  · simpa [validId] using idOf_lt c.word
  · simpa [validId] using idOf_lt c.word
  · simp [Instr.wellFormed]
  · rfl

end Sys2Proof
end

