-- ==== Sys2Proof/Laws/Operands.lean ====
section
/-!
SUPPORT. The operand forms of Machine/Operands.lean: bytes and merges, the divisor table, the control byte
in both directions, and what a control WRITE does to a timer record.
-/

namespace Sys2Proof.Machine

/-! ### Bytes and merges (R77) -/

/-- The bits of `hi_byte : lo_byte`. -/
theorem getLsbD_append_bytes (hi lo : Byte) (k : Nat) :
    (hi ++ lo : HalfWord).getLsbD k = if k < 8 then lo.getLsbD k else hi.getLsbD (k - 8) :=
  BitVec.getLsbD_append

theorem getLsbD_lowByte (v : HalfWord) (k : Nat) :
    (lowByte v).getLsbD k = (decide (k < 8) && v.getLsbD k) := by
  simp [lowByte]

theorem getLsbD_highByte (v : HalfWord) (k : Nat) :
    (highByte v).getLsbD k = (decide (k < 8) && v.getLsbD (8 + k)) := by
  simp [highByte]

@[simp] theorem lowByte_append (hi lo : Byte) : lowByte (hi ++ lo : HalfWord) = lo := by
  apply BitVec.eq_of_getLsbD_eq
  intro k hk
  rw [getLsbD_lowByte, getLsbD_append_bytes]
  simp [hk]

@[simp] theorem highByte_append (hi lo : Byte) : highByte (hi ++ lo : HalfWord) = hi := by
  apply BitVec.eq_of_getLsbD_eq
  intro k hk
  rw [getLsbD_highByte, getLsbD_append_bytes]
  simp [hk]

@[simp] theorem lowByte_mergeLow (v : HalfWord) (b : Byte) : lowByte (mergeLow v b) = b :=
  lowByte_append _ _

@[simp] theorem highByte_mergeLow (v : HalfWord) (b : Byte) : highByte (mergeLow v b) = highByte v :=
  highByte_append _ _

@[simp] theorem highByte_mergeHigh (v : HalfWord) (b : Byte) : highByte (mergeHigh v b) = b :=
  highByte_append _ _

@[simp] theorem lowByte_mergeHigh (v : HalfWord) (b : Byte) : lowByte (mergeHigh v b) = lowByte v :=
  lowByte_append _ _

/-- A 16-bit value is its two bytes. -/
theorem highByte_append_lowByte (v : HalfWord) : highByte v ++ lowByte v = v := by
  apply BitVec.eq_of_getLsbD_eq
  intro k hk
  rw [getLsbD_append_bytes, getLsbD_lowByte, getLsbD_highByte]
  split
  · simp [*]
  · have h1 : k - 8 < 8 := by omega
    have h2 : 8 + (k - 8) = k := by omega
    simp [h1, h2]

/-- Writing both halves, low byte first (R83, `wr.rld`). -/
theorem mergeHigh_mergeLow (v : HalfWord) (lo hi : Byte) : mergeHigh (mergeLow v lo) hi = hi ++ lo := by
  rw [mergeHigh, lowByte_mergeLow]

/-- Writing both halves, high byte first. -/
theorem mergeLow_mergeHigh (v : HalfWord) (lo hi : Byte) : mergeLow (mergeHigh v hi) lo = hi ++ lo := by
  rw [mergeLow, highByte_mergeHigh]

/-! ### The divisor table (R78) -/

/-- `mask = 2^shift - 1` (R78). -/
theorem maskOf_eq (f : BitVec 2) : maskOf f = 2 ^ shiftOf f - 1 := by
  revert f; decide

theorem maskOf_le (f : BitVec 2) : maskOf f ≤ 0x3FF := by
  revert f; decide

/-! ### The control byte (R75, R76) -/

@[simp] theorem decodeControl_id (t : Timer) (v : Byte) : (decodeControl t v).id = t.id := rfl
@[simp] theorem decodeControl_counter (t : Timer) (v : Byte) :
    (decodeControl t v).counter = t.counter := rfl
@[simp] theorem decodeControl_reload (t : Timer) (v : Byte) :
    (decodeControl t v).reload = t.reload := rfl
@[simp] theorem decodeControl_frequency (t : Timer) (v : Byte) :
    (decodeControl t v).frequency = v.extractLsb' 0 2 := rfl
@[simp] theorem decodeControl_cascade (t : Timer) (v : Byte) :
    (decodeControl t v).cascade = v.getLsbD 2 := rfl
@[simp] theorem decodeControl_interrupt (t : Timer) (v : Byte) :
    (decodeControl t v).interrupt = v.getLsbD 6 := rfl
@[simp] theorem decodeControl_enable (t : Timer) (v : Byte) :
    (decodeControl t v).enable = v.getLsbD 7 := rfl
@[simp] theorem decodeControl_shift (t : Timer) (v : Byte) :
    (decodeControl t v).shift = shiftOf (v.extractLsb' 0 2) := rfl
@[simp] theorem decodeControl_mask (t : Timer) (v : Byte) :
    (decodeControl t v).mask = maskOf (v.extractLsb' 0 2) := rfl
@[simp] theorem decodeControl_cycles (t : Timer) (v : Byte) :
    (decodeControl t v).cycles = t.cycles := rfl
@[simp] theorem decodeControl_overflow (t : Timer) (v : Byte) :
    (decodeControl t v).overflow = t.overflow := rfl

/-- A control WRITE in one equation: the decoded fields, and the counter of R107. -/
theorem writeControl_eq (t : Timer) (v : Byte) :
    writeControl t v =
      { decodeControl t v with
        counter := if t.enable = false ∧ v.getLsbD 7 = true then t.reload else t.counter } := by
  by_cases h : t.enable = false ∧ v.getLsbD 7 = true
  · rw [if_pos h, writeControl, if_pos (by simpa using h), decodeControl_reload]; rfl
  · rw [if_neg h, writeControl, if_neg (by simpa using h), ← decodeControl_counter t v]

theorem writeControl_counter (t : Timer) (v : Byte) :
    (writeControl t v).counter =
      if t.enable = false ∧ v.getLsbD 7 = true then t.reload else t.counter := by
  rw [writeControl_eq]
@[simp] theorem writeControl_id (t : Timer) (v : Byte) : (writeControl t v).id = t.id := by
  rw [writeControl_eq]; rfl
@[simp] theorem writeControl_reload (t : Timer) (v : Byte) : (writeControl t v).reload = t.reload := by
  rw [writeControl_eq]; rfl
@[simp] theorem writeControl_frequency (t : Timer) (v : Byte) :
    (writeControl t v).frequency = v.extractLsb' 0 2 := by rw [writeControl_eq]; rfl
@[simp] theorem writeControl_cascade (t : Timer) (v : Byte) :
    (writeControl t v).cascade = v.getLsbD 2 := by rw [writeControl_eq]; rfl
@[simp] theorem writeControl_interrupt (t : Timer) (v : Byte) :
    (writeControl t v).interrupt = v.getLsbD 6 := by rw [writeControl_eq]; rfl
@[simp] theorem writeControl_enable (t : Timer) (v : Byte) :
    (writeControl t v).enable = v.getLsbD 7 := by rw [writeControl_eq]; rfl
@[simp] theorem writeControl_shift (t : Timer) (v : Byte) :
    (writeControl t v).shift = shiftOf (v.extractLsb' 0 2) := by rw [writeControl_eq]; rfl
@[simp] theorem writeControl_mask (t : Timer) (v : Byte) :
    (writeControl t v).mask = maskOf (v.extractLsb' 0 2) := by rw [writeControl_eq]; rfl
@[simp] theorem writeControl_cycles (t : Timer) (v : Byte) :
    (writeControl t v).cycles = t.cycles := by rw [writeControl_eq]; rfl
@[simp] theorem writeControl_overflow (t : Timer) (v : Byte) :
    (writeControl t v).overflow = t.overflow := by rw [writeControl_eq]; rfl

/-- The packed control byte as a function of the four fields alone (R76). -/
def packControl (f : BitVec 2) (cascade interrupt enable : Bool) : Byte :=
  (if enable then 0x80 else 0) ||| (if interrupt then 0x40 else 0) |||
    (if cascade then 0x04 else 0) ||| f.setWidth 8

theorem controlByte_eq (t : Timer) :
    controlByte t = packControl t.frequency t.cascade t.interrupt t.enable := rfl

/-- Packing the fields a byte decodes to keeps every bit but 5:3 (R75, R76, R79). -/
theorem packControl_decode (v : Byte) :
    packControl (v.extractLsb' 0 2) (v.getLsbD 2) (v.getLsbD 6) (v.getLsbD 7) = v &&& 0xC7 := by
  revert v; decide

/-- A READ of offset 2 after a WRITE of `v` there returns `v` with bits 5:3 zero (R79). -/
theorem controlByte_writeControl (t : Timer) (v : Byte) : controlByte (writeControl t v) = v &&& 0xC7 := by
  rw [controlByte_eq, writeControl_frequency, writeControl_cascade, writeControl_interrupt,
    writeControl_enable, packControl_decode]

end Sys2Proof.Machine
end

