-- ==== Sys2Proof/Laws/Exec.lean ====
section
/-!
SUPPORT. What `exec` answers, form by form, and everything it can do when it answers a next state
(`exec_next`), which later proofs cite instead of unfolding a meaning.
-/

namespace Sys2Proof.Machine

/-! ### Results, for an index in 0..3 -/

@[simp] theorem exec_rdCntl (i : Fin 4) (s : State) :
    exec (.rdCntl i.val) s = .next (s.answer (lowByte (s.timer i).counter)) := by
  change execRdCntl _ _ = _
  exact withTimer_val i _
@[simp] theorem exec_rdCnth (i : Fin 4) (s : State) :
    exec (.rdCnth i.val) s = .next (s.answer (highByte (s.timer i).counter)) := by
  change execRdCnth _ _ = _
  exact withTimer_val i _
@[simp] theorem exec_rdCtrl (i : Fin 4) (s : State) :
    exec (.rdCtrl i.val) s = .next (s.answer (controlByte (s.timer i))) := by
  change execRdCtrl _ _ = _
  exact withTimer_val i _
@[simp] theorem exec_rdUnused (i : Fin 4) (s : State) :
    exec (.rdUnused i.val) s = .next (s.answer 0x00) := by
  change execRdUnused _ _ = _
  exact withTimer_val i _
@[simp] theorem exec_wrRldl (i : Fin 4) (v : Byte) (s : State) :
    exec (.wrRldl i.val v) s =
      .next (s.setTimer i { s.timer i with reload := mergeLow (s.timer i).reload v }).quiet := by
  change execWrRldl _ _ _ = _
  exact withTimer_val i _
@[simp] theorem exec_wrRldh (i : Fin 4) (v : Byte) (s : State) :
    exec (.wrRldh i.val v) s =
      .next (s.setTimer i { s.timer i with reload := mergeHigh (s.timer i).reload v }).quiet := by
  change execWrRldh _ _ _ = _
  exact withTimer_val i _
@[simp] theorem exec_wrCtrl (i : Fin 4) (v : Byte) (s : State) :
    exec (.wrCtrl i.val v) s = .next (s.setTimer i (writeControl (s.timer i) v)).quiet := by
  change execWrCtrl _ _ _ = _
  exact withTimer_val i _
@[simp] theorem exec_wrUnused (i : Fin 4) (v : Byte) (s : State) :
    exec (.wrUnused i.val v) s = .next s.quiet := by
  change execWrUnused _ v _ = _
  exact withTimer_val i _
@[simp] theorem exec_reset (s : State) :
    exec .reset s = .next ({ s with timers := initialTimers } : State).quiet := rfl

/-- The state one ADVANCE leaves. -/
def afterAdvance (n : Nat) (s : State) : State := endPass s (passOf n (startPass s))

@[simp] theorem exec_adv_nat (n : Nat) (s : State) : exec (.adv n) s = .next (afterAdvance n s) := by
  change execAdv n s = _
  rw [execAdv, if_neg (by omega)]
  rfl

theorem exec_adv_of_nonneg {n : Int} (h : 0 ≤ n) (s : State) :
    exec (.adv n) s = .next (afterAdvance n.toNat s) := by
  obtain ⟨k, rfl⟩ := Int.eq_ofNat_of_zero_le h
  exact exec_adv_nat k s

theorem exec_adv_of_neg {n : Int} (h : n < 0) (s : State) :
    exec (.adv n) s = .fault (.invalidArgument (.cycleCount n)) := if_pos h

/-! ### An index outside 0..3 (R100) -/

theorem exec_rdCntl_of_ge {id : Nat} (h : 4 ≤ id) (s : State) :
    exec (.rdCntl id) s = .fault (.invalidArgument (.timerId id)) := by
  change execRdCntl id s = _
  exact withTimer_of_ge h _
theorem exec_rdCnth_of_ge {id : Nat} (h : 4 ≤ id) (s : State) :
    exec (.rdCnth id) s = .fault (.invalidArgument (.timerId id)) := by
  change execRdCnth id s = _
  exact withTimer_of_ge h _
theorem exec_rdCtrl_of_ge {id : Nat} (h : 4 ≤ id) (s : State) :
    exec (.rdCtrl id) s = .fault (.invalidArgument (.timerId id)) := by
  change execRdCtrl id s = _
  exact withTimer_of_ge h _
theorem exec_rdUnused_of_ge {id : Nat} (h : 4 ≤ id) (s : State) :
    exec (.rdUnused id) s = .fault (.invalidArgument (.timerId id)) := by
  change execRdUnused id s = _
  exact withTimer_of_ge h _
theorem exec_wrRldl_of_ge {id : Nat} (h : 4 ≤ id) (v : Byte) (s : State) :
    exec (.wrRldl id v) s = .fault (.invalidArgument (.timerId id)) := by
  change execWrRldl id v s = _
  exact withTimer_of_ge h _
theorem exec_wrRldh_of_ge {id : Nat} (h : 4 ≤ id) (v : Byte) (s : State) :
    exec (.wrRldh id v) s = .fault (.invalidArgument (.timerId id)) := by
  change execWrRldh id v s = _
  exact withTimer_of_ge h _
theorem exec_wrCtrl_of_ge {id : Nat} (h : 4 ≤ id) (v : Byte) (s : State) :
    exec (.wrCtrl id v) s = .fault (.invalidArgument (.timerId id)) := by
  change execWrCtrl id v s = _
  exact withTimer_of_ge h _
theorem exec_wrUnused_of_ge {id : Nat} (h : 4 ≤ id) (v : Byte) (s : State) :
    exec (.wrUnused id v) s = .fault (.invalidArgument (.timerId id)) := by
  change execWrUnused id v s = _
  exact withTimer_of_ge h _

theorem exec_ofRead_of_ge {id : Nat} (h : 4 ≤ id) (offset : Nat) (s : State) :
    exec (.ofRead id offset) s = .fault (.invalidArgument (.timerId id)) := by
  unfold Instr.ofRead
  split
  · exact exec_rdCntl_of_ge h s
  · exact exec_rdCnth_of_ge h s
  · exact exec_rdCtrl_of_ge h s
  · exact exec_rdUnused_of_ge h s

theorem exec_ofWrite_of_ge {id : Nat} (h : 4 ≤ id) (offset : Nat) (v : Byte) (s : State) :
    exec (.ofWrite id offset v) s = .fault (.invalidArgument (.timerId id)) := by
  unfold Instr.ofWrite
  split
  · exact exec_wrRldl_of_ge h v s
  · exact exec_wrRldh_of_ge h v s
  · exact exec_wrCtrl_of_ge h v s
  · exact exec_wrUnused_of_ge h v s

/-- The byte a READ of `(i, offset)` answers, as a function of the timer alone. -/
def readByte (t : Timer) (offset : Nat) : Byte :=
  match offset with
  | 0 => lowByte t.counter
  | 1 => highByte t.counter
  | 2 => controlByte t
  | _ => 0x00

theorem exec_ofRead (i : Fin 4) (offset : Nat) (s : State) :
    exec (.ofRead i.val offset) s = .next (s.answer (readByte (s.timer i) offset)) := by
  match offset with
  | 0 => exact exec_rdCntl i s
  | 1 => exact exec_rdCnth i s
  | 2 => exact exec_rdCtrl i s
  | _ + 3 => exact exec_rdUnused i s

/-! ### The fields one ADVANCE leaves -/

@[simp] theorem afterAdvance_inputs (n : Nat) (s : State) : (afterAdvance n s).inputs = s.inputs := rfl
@[simp] theorem afterAdvance_busRdata (n : Nat) (s : State) :
    (afterAdvance n s).ports.busRdata = none := rfl
theorem afterAdvance_timer (n : Nat) (s : State) (i : Fin 4) :
    (afterAdvance n s).timer i =
      consume (successorCascades s i) (visited n (incomingFlag n s i) (s.timer i)).1 := pass_timer n s i
theorem afterAdvance_wraps (n : Nat) (s : State) :
    ∃ w : Vector Nat 4, (afterAdvance n s).ports.wraps = some w ∧
      ∀ i : Fin 4, w[i.val] = (visited n (incomingFlag n s i) (s.timer i)).2 :=
  ⟨_, rfl, pass_wraps n s⟩
theorem afterAdvance_IF (n : Nat) (s : State) : (afterAdvance n s).IF = s.IF ||| passRequests n s :=
  pass_IF n s
theorem afterAdvance_irqSet (n : Nat) (s : State) :
    (afterAdvance n s).ports.irqSet = passRequests n s := pass_irqSet n s

/-- What a visit leaves unchanged in a record (R37: only `counter`, `overflow` and `cycles` may change). -/
theorem visited_frame (n : Nat) (prev : Bool) (t : Timer) :
    (visited n prev t).1 =
      { t with
        counter := (visited n prev t).1.counter
        cycles := (visited n prev t).1.cycles
        overflow := (visited n prev t).1.overflow } := by
  unfold visited
  split
  · rw [freeRun_eq]
  · split <;> rfl

theorem irqSet_bit (n : Nat) (s : State) (i : Fin 4) :
    (afterAdvance n s).ports.irqSet.getLsbD (Config.irqBase + i.val) =
      ((s.timer i).interrupt && decide (0 < (visited n (incomingFlag n s i) (s.timer i)).2)) := by
  rw [afterAdvance_irqSet, Bool.eq_iff_iff, passRequests_getLsbD]
  constructor
  · rintro ⟨j, hj, h1, h2⟩
    have : i = j := Fin.ext (by omega)
    subst this; simp [h1, h2]
  · intro h
    simp only [Bool.and_eq_true, decide_eq_true_iff] at h
    exact ⟨i, rfl, h.1, h.2⟩

/-- The flag after one ADVANCE: as the timer's own visit left it, unless a cascade successor consumed
it. -/
theorem afterAdvance_overflow (n : Nat) (s : State) (i : Fin 4) :
    ((afterAdvance n s).timer i).overflow =
      (flagAfterVisit n (incomingFlag n s i) (s.timer i) && !successorCascades s i) := by
  rw [afterAdvance_timer]; simp [consume, visited_overflow]

/-- Neighbours: the successor's cascade is what `successorCascades` says of the lower timer. -/
theorem successorCascades_eq {j i : Fin 4} (h : j.val + 1 = i.val) (s : State) :
    successorCascades s j = (s.timer i).cascading := by
  match j, i with
  | 0, 1 => rfl
  | 1, 2 => rfl
  | 2, 3 => rfl

/-- Neighbours: the flag the upper timer finds is the lower timer's after its visit. -/
theorem incomingFlag_succ {j i : Fin 4} (h : j.val + 1 = i.val) (n : Nat) (s : State) :
    incomingFlag n s i = flagAfterVisit n (incomingFlag n s j) (s.timer j) := by
  match j, i with
  | 0, 1 => rfl
  | 1, 2 => rfl
  | 2, 3 => rfl

/-! ### Everything an operation can do -/

/-- If `exec` answers a next state, one of these ten cases holds. -/
theorem exec_next {i : Instr} {s t : State} (h : exec i s = .next t) :
    (∃ j : Fin 4, i = .rdCntl j.val ∧ t = s.answer (lowByte (s.timer j).counter)) ∨
    (∃ j : Fin 4, i = .rdCnth j.val ∧ t = s.answer (highByte (s.timer j).counter)) ∨
    (∃ j : Fin 4, i = .rdCtrl j.val ∧ t = s.answer (controlByte (s.timer j))) ∨
    (∃ j : Fin 4, i = .rdUnused j.val ∧ t = s.answer 0x00) ∨
    (∃ (j : Fin 4) (v : Byte), i = .wrRldl j.val v ∧
      t = (s.setTimer j { s.timer j with reload := mergeLow (s.timer j).reload v }).quiet) ∨
    (∃ (j : Fin 4) (v : Byte), i = .wrRldh j.val v ∧
      t = (s.setTimer j { s.timer j with reload := mergeHigh (s.timer j).reload v }).quiet) ∨
    (∃ (j : Fin 4) (v : Byte), i = .wrCtrl j.val v ∧
      t = (s.setTimer j (writeControl (s.timer j) v)).quiet) ∨
    (∃ (j : Fin 4) (v : Byte), i = .wrUnused j.val v ∧ t = s.quiet) ∨
    (∃ n : Nat, i = .adv n ∧ t = afterAdvance n s) ∨
    (i = .reset ∧ t = ({ s with timers := initialTimers } : State).quiet) := by
  cases i with
  | rdCntl id =>
    change execRdCntl id s = _ at h
    obtain ⟨j, rfl, hj⟩ := withTimer_next h
    cases hj; exact .inl ⟨j, rfl, rfl⟩
  | rdCnth id =>
    change execRdCnth id s = _ at h
    obtain ⟨j, rfl, hj⟩ := withTimer_next h
    cases hj; exact .inr (.inl ⟨j, rfl, rfl⟩)
  | rdCtrl id =>
    change execRdCtrl id s = _ at h
    obtain ⟨j, rfl, hj⟩ := withTimer_next h
    cases hj; exact .inr (.inr (.inl ⟨j, rfl, rfl⟩))
  | rdUnused id =>
    change execRdUnused id s = _ at h
    obtain ⟨j, rfl, hj⟩ := withTimer_next h
    cases hj; exact .inr (.inr (.inr (.inl ⟨j, rfl, rfl⟩)))
  | wrRldl id v =>
    change execWrRldl id v s = _ at h
    obtain ⟨j, rfl, hj⟩ := withTimer_next h
    cases hj; exact .inr (.inr (.inr (.inr (.inl ⟨j, v, rfl, rfl⟩))))
  | wrRldh id v =>
    change execWrRldh id v s = _ at h
    obtain ⟨j, rfl, hj⟩ := withTimer_next h
    cases hj; exact .inr (.inr (.inr (.inr (.inr (.inl ⟨j, v, rfl, rfl⟩)))))
  | wrCtrl id v =>
    change execWrCtrl id v s = _ at h
    obtain ⟨j, rfl, hj⟩ := withTimer_next h
    cases hj; exact .inr (.inr (.inr (.inr (.inr (.inr (.inl ⟨j, v, rfl, rfl⟩))))))
  | wrUnused id v =>
    change execWrUnused id v s = _ at h
    obtain ⟨j, rfl, hj⟩ := withTimer_next h
    cases hj; exact .inr (.inr (.inr (.inr (.inr (.inr (.inr (.inl ⟨j, v, rfl, rfl⟩)))))))
  | adv n =>
    by_cases hn : n < 0
    · rw [exec_adv_of_neg hn] at h; cases h
    · obtain ⟨k, rfl⟩ := Int.eq_ofNat_of_zero_le (by omega : 0 ≤ n)
      rw [exec_adv_nat] at h
      cases h
      exact .inr (.inr (.inr (.inr (.inr (.inr (.inr (.inr (.inl ⟨k, rfl, rfl⟩))))))))
  | reset =>
    cases h
    exact .inr (.inr (.inr (.inr (.inr (.inr (.inr (.inr (.inr ⟨rfl, rfl⟩))))))))

end Sys2Proof.Machine
end

