-- ==== Sys2Proof/Laws/PerInstr.lean ====
section
/-!
SUPPORT. The family TableRow: the word of a well-formed operation is covered by the row of the opcode map
(30_encoding.md R81) that bears its mnemonic, and by no other row.
-/

namespace Sys2Proof.Laws.TableRow

/-- The rows of R81 that cover the encoded word are exactly the row of the operation's mnemonic. -/
def Statement (i : Instr) : Prop :=
  i.wellFormed = true →
    (opcodeTable.filter fun r => r.covers (encode i).word).map (·.mnemonic) = [i.mnemonic]

theorem rdCntl (id : Nat) : Statement (.rdCntl id) := by
  intro h; simp only [Instr.wellFormed, validId, decide_eq_true_iff] at h
  interval_cases id <;> decide
theorem rdCnth (id : Nat) : Statement (.rdCnth id) := by
  intro h; simp only [Instr.wellFormed, validId, decide_eq_true_iff] at h
  interval_cases id <;> decide
theorem rdCtrl (id : Nat) : Statement (.rdCtrl id) := by
  intro h; simp only [Instr.wellFormed, validId, decide_eq_true_iff] at h
  interval_cases id <;> decide
theorem rdUnused (id : Nat) : Statement (.rdUnused id) := by
  intro h; simp only [Instr.wellFormed, validId, decide_eq_true_iff] at h
  interval_cases id <;> decide
theorem wrRldl (id : Nat) (v : Byte) : Statement (.wrRldl id v) := by
  intro h; simp only [Instr.wellFormed, validId, decide_eq_true_iff] at h
  interval_cases id <;> (simp only [encode, Instr.mnemonic]; decide)
theorem wrRldh (id : Nat) (v : Byte) : Statement (.wrRldh id v) := by
  intro h; simp only [Instr.wellFormed, validId, decide_eq_true_iff] at h
  interval_cases id <;> (simp only [encode, Instr.mnemonic]; decide)
theorem wrCtrl (id : Nat) (v : Byte) : Statement (.wrCtrl id v) := by
  intro h; simp only [Instr.wellFormed, validId, decide_eq_true_iff] at h
  interval_cases id <;> (simp only [encode, Instr.mnemonic]; decide)
theorem wrUnused (id : Nat) (v : Byte) : Statement (.wrUnused id v) := by
  intro h; simp only [Instr.wellFormed, validId, decide_eq_true_iff] at h
  interval_cases id <;> (simp only [encode, Instr.mnemonic]; decide)
theorem adv (n : Int) : Statement (.adv n) := fun _ => by
  simp only [encode, Instr.mnemonic]; decide
theorem reset : Statement .reset := fun _ => by
  simp only [encode, Instr.mnemonic]; decide

end Sys2Proof.Laws.TableRow
end

