-- ==== Sys2Proof/Laws/Reference.lean ====
section
/-!
SUPPORT. The reference timer of 41_advance_engine.md R131 in closed form: what `m` ticks and what `n` base
cycles leave, and how ticks split over two batches.
-/

namespace Sys2Proof.Machine

/-- `m` ticks, one at a time. -/
def tickRun (reload : HalfWord) (m : Nat) (r : RefTimer) : RefTimer :=
  match m with
  | 0 => r
  | k + 1 => refTick reload (tickRun reload k r)

theorem tickRun_add (reload : HalfWord) (a b : Nat) (r : RefTimer) :
    tickRun reload (a + b) r = tickRun reload b (tickRun reload a r) := by
  induction b with
  | zero => rfl
  | succ b ih => rw [← Nat.add_assoc]; simp only [tickRun, ih]

theorem tickRun_prescaler (reload : HalfWord) (m : Nat) (r : RefTimer) :
    (tickRun reload m r).prescaler = r.prescaler := by
  induction m with
  | zero => rfl
  | succ m ih => rw [tickRun, refTick]; split <;> exact ih

theorem tickRun_setPrescaler (reload : HalfWord) (m p : Nat) (r : RefTimer) :
    tickRun reload m { r with prescaler := p } = { tickRun reload m r with prescaler := p } := by
  induction m with
  | zero => rfl
  | succ m ih => rw [tickRun, ih, tickRun, refTick, refTick]; split <;> rfl


/-- One tick on the counter, as a natural number. -/
theorem tick_counter_toNat (reload : HalfWord) (r : RefTimer) :
    (refTick reload r).counter.toNat = if r.counter.toNat = 0xFFFF then reload.toNat else r.counter.toNat + 1 := by
  have hl := r.counter.isLt
  unfold refTick
  by_cases h : r.counter = 0xFFFF
  · rw [if_pos h, if_pos (by rw [h]; rfl)]
  · have h' : r.counter.toNat ≠ 0xFFFF := fun h' => h (BitVec.eq_of_toNat_eq h')
    rw [if_neg h, if_neg h']
    simp only [BitVec.toNat_add]
    simp; omega

/-- One tick on the count of wraps. -/
theorem tick_wraps (reload : HalfWord) (r : RefTimer) :
    (refTick reload r).wraps = if r.counter.toNat = 0xFFFF then r.wraps + 1 else r.wraps := by
  unfold refTick
  by_cases h : r.counter = 0xFFFF
  · rw [if_pos h, if_pos (by rw [h]; rfl)]
  · have h' : r.counter.toNat ≠ 0xFFFF := fun h' => h (BitVec.eq_of_toNat_eq h')
    rw [if_neg h, if_neg h']


/-- Quotient and remainder of a successor. -/
theorem succ_div_mod (a b : Nat) (hb : 0 < b) :
    ((a % b + 1 = b → (a+1) % b = 0 ∧ (a+1)/b = a / b + 1) ∧ (a % b + 1 ≠ b → (a+1) % b = a % b + 1 ∧ (a+1)/b = a/b)) := by
  have h0 := Nat.div_add_mod' a b
  have hm := Nat.mod_lt a hb
  constructor
  · intro h
    have : a + 1 = (a / b + 1) * b := by rw [Nat.add_mul]; omega
    rw [this]; exact ⟨Nat.mul_mod_left _ _, Nat.mul_div_cancel _ hb⟩
  · intro h
    have : a + 1 = (a % b + 1) + (a / b) * b := by omega
    constructor
    · conv_lhs => rw [this]
      rw [Nat.add_mul_mod_self_right, Nat.mod_eq_of_lt (by omega)]
    · conv_lhs => rw [this]
      rw [Nat.add_mul_div_right _ _ hb, Nat.div_eq_of_lt (by omega), Nat.zero_add]

/-- `m` ticks in closed form: R126 and R127 are the repetition of one tick. -/
theorem tickRun_closed (reload : HalfWord) (m : Nat) (r : RefTimer) :
    let span := 0x10000 - r.counter.toNat
    let period := 0x10000 - reload.toNat
    (tickRun reload m r).counter.toNat =
        (if m < span then r.counter.toNat + m else reload.toNat + (m - span) % period) ∧
      (tickRun reload m r).wraps = r.wraps + (if m < span then 0 else 1 + (m - span) / period) := by
  intro span period
  have hc := r.counter.isLt
  have hr := reload.isLt
  have hs : 0 < span := by omega
  have hp : 0 < period := by omega
  induction m with
  | zero => simp [tickRun, hs]
  | succ m ih =>
    obtain ⟨h1, h2⟩ := ih
    rw [tickRun, tick_counter_toNat, tick_wraps, h1, h2]
    by_cases hm : m < span
    · simp only [if_pos hm]
      by_cases hm' : m + 1 < span
      · rw [if_pos hm', if_pos hm', if_neg (by omega), if_neg (by omega)]; omega
      · have : m + 1 - span = 0 := by omega
        rw [if_neg hm', if_neg hm', if_pos (by omega), if_pos (by omega), this]
        simp
    · have hm' : ¬ m + 1 < span := by omega
      simp only [if_neg hm, if_neg hm']
      have e : m + 1 - span = (m - span) + 1 := by omega
      have hml := Nat.mod_lt (m - span) hp
      obtain ⟨ha, hb⟩ := succ_div_mod (m - span) period hp
      rw [e]
      by_cases hh : (m - span) % period + 1 = period
      · obtain ⟨e1, e2⟩ := ha hh
        rw [e1, e2, if_pos (by omega), if_pos (by omega)]; omega
      · obtain ⟨e1, e2⟩ := hb hh
        rw [e1, e2, if_neg (by omega), if_neg (by omega)]; omega

/-- The free-running step is the ticks of R125, one at a time. -/
theorem freeRun_tickRun (t : Timer) (n p : Nat) :
    tickRun t.reload (ticksOf t n) ⟨p, t.counter, 0⟩ = ⟨p, BitVec.ofNat 16 (freeCounter t n), freeWraps t n⟩ := by
  obtain ⟨h1, h2⟩ := tickRun_closed t.reload (ticksOf t n) ⟨p, t.counter, 0⟩
  have h3 := tickRun_prescaler t.reload (ticksOf t n) ⟨p, t.counter, 0⟩
  have hl := freeCounter_lt t n
  generalize tickRun t.reload (ticksOf t n) ⟨p, t.counter, 0⟩ = r at *
  cases r
  simp only [RefTimer.mk.injEq]
  refine ⟨h3, BitVec.eq_of_toNat_eq ?_, ?_⟩
  · rw [BitVec.toNat_ofNat, Nat.mod_eq_of_lt hl]; exact h1
  · exact h2.trans (Nat.zero_add _)


/-- `n` base cycles are `(prescaler + n) / 2^shift` ticks and a new prescaler. -/
theorem refRun_eq (shift : Nat) (reload : HalfWord) (n : Nat) (r : RefTimer) (h : r.prescaler < 2 ^ shift) :
    refRun shift reload n r =
      { tickRun reload ((r.prescaler + n) / 2 ^ shift) r with prescaler := (r.prescaler + n) % 2 ^ shift } := by
  have hd := Nat.two_pow_pos shift
  induction n generalizing r with
  | zero => simp only [refRun, Nat.add_zero, Nat.div_eq_of_lt h, Nat.mod_eq_of_lt h, tickRun]
  | succ n ih =>
    rw [refRun, refCycle]
    by_cases h1 : r.prescaler + 1 = 2 ^ shift
    · rw [if_pos h1]
      have hz : (refTick reload { r with prescaler := 0 }).prescaler = 0 := tickRun_prescaler reload 1 { r with prescaler := 0 }
      rw [ih _ (by rw [hz]; exact hd), hz]
      have e : r.prescaler + (n + 1) = n + 2 ^ shift := by omega
      rw [e, Nat.add_div_right _ hd, Nat.add_mod_right, Nat.zero_add]
      have : tickRun reload (n / 2 ^ shift) (refTick reload { r with prescaler := 0 }) = { tickRun reload (n/2^shift + 1) r with prescaler := 0 } := by
        rw [← tickRun_setPrescaler, Nat.add_comm, tickRun_add]; rfl
      rw [this]
    · rw [if_neg h1, ih _ (by simp only; omega), tickRun_setPrescaler]
      have e : r.prescaler + 1 + n = r.prescaler + (n + 1) := by omega
      simp only [e]


/-- The ticks of two batches add up to those of one (R131). -/
theorem ticks_split (c a b d : Nat) (hd : 0 < d) : (c + (a + b)) / d = (c + a) / d + ((c + a) % d + b) / d := by
  have : c + (a + b) = d * ((c + a) / d) + ((c + a) % d + b) := by
    have := Nat.div_add_mod (c + a) d; omega
  rw [this, Nat.mul_add_div hd]

/-- The leftover of two batches is that of one (R131). -/
theorem rem_split (c a b d : Nat) : (c + (a + b)) % d = ((c + a) % d + b) % d := by
  rw [Nat.mod_add_mod, Nat.add_assoc]

/-! ### The two passes of R133, one visit at a time -/

/-- The record a free-running visit leaves. -/
def freeVisited (n : Nat) (t : Timer) : Timer := if t.freeRunning then (freeRun t n).1 else t

/-- The request a free-running visit raises. -/
def freeRequest (n : Nat) (t : Timer) (i : Fin 4) : IrqWord :=
  if t.freeRunning && freeOverflow t n && t.interrupt then requestBit i else 0

theorem freeVisit_timer (n : Nat) (p : Pass) (i j : Fin 4) :
    (freeVisit n p i).timer j = if i = j then freeVisited n (p.timer j) else p.timer j := by
  unfold freeVisit freeVisited
  by_cases h : (p.timer i).freeRunning = true
  · rw [if_pos h]
    by_cases hij : i = j
    · subst hij; simp [freeStep, h]
    · simp [freeStep, hij]
  · rw [if_neg h]
    by_cases hij : i = j
    · subst hij; simp [h]
    · simp [hij]

theorem freeVisit_wraps (n : Nat) (p : Pass) (i j : Fin 4) :
    (freeVisit n p i).wraps[j.val] =
      if i = j ∧ (p.timer i).freeRunning = true then freeWraps (p.timer i) n else p.wraps[j.val] := by
  unfold freeVisit
  by_cases h : (p.timer i).freeRunning = true
  · rw [if_pos h]; simp [freeStep, Vector.getElem_set, h, Fin.ext_iff, freeRun_eq]
  · rw [if_neg h]; simp [h]

theorem freeVisit_requests (n : Nat) (p : Pass) (i : Fin 4) :
    (freeVisit n p i).IF = p.IF ||| freeRequest n (p.timer i) i ∧
      (freeVisit n p i).irqSet = p.irqSet ||| freeRequest n (p.timer i) i := by
  unfold freeVisit freeRequest
  by_cases h : (p.timer i).freeRunning = true
  · rw [if_pos h]; simp [freeStep, h, Pass.raiseIRQIf_IF, Pass.raiseIRQIf_irqSet, freeRun_eq]
  · rw [if_neg h]; simp [h]

/-- A cascade visit is the single pass's visit of a cascade timer, whatever the count. -/
theorem cascadeVisit_eq (n : Nat) (p : Pass) (i : Fin 4) :
    cascadeVisit p i = if (p.timer i).cascading then visit n p i else p := by
  unfold cascadeVisit
  by_cases h : (p.timer i).cascading = true
  · rw [if_pos h, if_pos h, visit_cascade h]
  · rw [if_neg h, if_neg h]

/-- The second phase as four visits. -/
theorem twoPhasePass_eq (n : Nat) (p : Pass) :
    twoPhasePass n p =
      cascadeVisit (cascadeVisit (cascadeVisit (cascadeVisit
        (([0, 1, 2, 3] : List (Fin 4)).foldl (freeVisit n) p) 0) 1) 2) 3 := by
  unfold twoPhasePass
  generalize ([0, 1, 2, 3] : List (Fin 4)).foldl (freeVisit n) p = q
  rfl

end Sys2Proof.Machine
end

