-- ==== Sys2Proof/Laws/Step.lean ====
section
/-!
SUPPORT. What a step and a run can do, said once: `step_next` lists the ways a step answers a next state, and
`core_run_succ` unrolls a run by one step.
-/

namespace Sys2Proof.Machine

/-- No operation touches the list of moves. -/
theorem exec_inputs {i : Instr} {s t : State} (h : exec i s = .next t) : t.inputs = s.inputs := by
  obtain ⟨j, rfl, rfl⟩ | ⟨j, rfl, rfl⟩ | ⟨j, rfl, rfl⟩ | ⟨j, rfl, rfl⟩ | ⟨j, v, rfl, rfl⟩ | ⟨j, v, rfl, rfl⟩ |
    ⟨j, v, rfl, rfl⟩ | ⟨j, v, rfl, rfl⟩ | ⟨n, rfl, rfl⟩ | ⟨rfl, rfl⟩ := exec_next h <;> rfl

/-- A presented command that is let through decodes, and runs the operation it decodes to. -/
theorem presentCommand_next {c : Command} {s t : State} (h : presentCommand c s = .next t) :
    ∃ i, decode c = .ok i ∧ exec i s = .next t := by
  unfold presentCommand at h
  split at h
  · exact ⟨_, ‹_›, h⟩
  · cases h
  · cases h

/-- If a move is let through, it ran an operation, or only prepended byte operations of a guest access to
the list, or only changed `IF`. -/
theorem applyInput_next {x : Input} {s t : State} (h : applyInput x s = .next t) :
    (∃ i : Instr, exec i s = .next t) ∨
      (∃ ops : List Input, t = { s with inputs := ops ++ s.inputs }) ∨
      (∃ word : IrqWord, t = { s with IF := word }) := by
  cases x with
  | command c =>
    obtain ⟨i, -, hi⟩ := presentCommand_next h
    exact .inl ⟨i, hi⟩
  | read id offset => exact .inl ⟨.ofRead id offset, h⟩
  | write id offset v => exact .inl ⟨.ofWrite id offset v, h⟩
  | advance n => exact .inl ⟨.adv n, h⟩
  | reset => exact .inl ⟨.reset, h⟩
  | guestRead addr width => cases h; exact .inr (.inl ⟨_, rfl⟩)
  | guestWrite addr bytes => cases h; exact .inr (.inl ⟨_, rfl⟩)
  | interruptController clear set => cases h; exact .inr (.inr ⟨_, rfl⟩)

/-- If a step answers a next state, the list was empty and nothing changed, or its oldest move was made. -/
theorem step_next {s t : State} (h : step s = .next t) :
    (s.inputs = [] ∧ t = s) ∨
      ∃ (x : Input) (rest : List Input), s.inputs = x :: rest ∧
        applyInput x { s with inputs := rest } = .next t := by
  unfold step at h
  split at h
  · cases h; exact .inl ⟨‹_›, rfl⟩
  · exact .inr ⟨_, _, ‹_›, h⟩

/-- A window byte's index is in 0..3, whatever the decoder does elsewhere. -/
theorem routeGuest_lt {addr : Nat} {p : Nat × Nat} (h : routeGuest addr = some p) : p.1 < 4 := by
  unfold routeGuest at h
  split at h
  · cases h; simp only; omega
  · simp only [Option.map_eq_some_iff] at h
    obtain ⟨x, -, rfl⟩ := h
    exact x.1.isLt

/-- Where the decoder must route a guest address of the window (R51, R52). -/
theorem routeGuest_window {rel : Nat} (h : rel < 16) :
    routeGuest (Config.timerBase + rel) = some (rel / 4, rel % 4) := by
  rw [routeGuest, if_pos (by omega), Nat.add_sub_cancel_left]

/-! ### Runs -/

theorem core_run_zero (s : State) : Sys2Proof.core.run 0 s = .next s := rfl

theorem run_succ_of_next (M : Host.Core) (k : Nat) {s t : M.State} (h : M.step s = .next t) :
    M.run (k + 1) s = M.run k t := by
  rw [Host.Core.run.eq_def]; simp only [h]

/-- A run that begins with a step to `t` goes on as the run from `t`. -/
theorem core_run_succ {s t : State} (h : step s = .next t) (k : Nat) :
    Sys2Proof.core.run (k + 1) s = Sys2Proof.core.run k t :=
  run_succ_of_next Sys2Proof.core k h

end Sys2Proof.Machine
end

