-- ==== Sys2Proof/Tests/Slice0.lean ====
section
/-!
SUPPORT. Tests. Words are written out bit by bit from the encodings of 30_encoding.md R81, and expected
values are those of 95_test_vectors.md (the vector's name stands in each docstring). The second part gives,
for every statement of the package with hypotheses, a state and operands that meet them all, at the
boundaries of each clause.
-/

namespace Sys2Proof.Tests

open Sys2Proof.Machine

/-! ### Small states -/

/-- A timer record in the notation of 95_test_vectors.md: `c=`, `r=`, `ctl=`, `cyc=`, `ov=`. -/
def tm (i : Fin 4) (c r : HalfWord) (ctl : Byte) (cyc : Nat) (ov : Bool) : Timer :=
  { decodeControl (Timer.initial i) ctl with counter := c, reload := r, cycles := cyc, overflow := ov }

/-- The power-up state with one timer replaced. -/
def one (t : Timer) : State := State.reset.setTimer t.id t

/-- The power-up state with two timers replaced. -/
def two (t u : Timer) : State := (one t).setTimer u.id u

/-- What `f` sees of the next state, if there is one. -/
def seen {α : Type} (f : State → α) (o : Host.Outcome State Fault Refusal) : Option α :=
  match o with
  | .next t => some (f t)
  | .fault _ => none
  | .refused _ => none

/-- Counter, leftover, flag of one timer, and the counts of wraps. -/
def view (i : Fin 4) (s : State) : HalfWord × Nat × Bool × Option (Vector Nat 4) :=
  ((s.timer i).counter, (s.timer i).cycles, (s.timer i).overflow, s.ports.wraps)

/-- A state whose last operation asserted no request is in order if its timers are. -/
theorem inv_of_timers {s : State} (h : ∀ i, Timer.Inv i (s.timer i)) (hp : s.ports.irqSet = 0) : s.Inv :=
  ⟨h, fun k hk => by rw [hp] at hk; simp at hk⟩

theorem forall_fin4 {P : Fin 4 → Prop} (h0 : P 0) (h1 : P 1) (h2 : P 2) (h3 : P 3) : ∀ i, P i := fun i =>
  match i with
  | 0 => h0
  | 1 => h1
  | 2 => h2
  | 3 => h3

/-! ### Well-formedness -/

/-- A timer index of 4 is refused in every READ and WRITE form (R100). -/
theorem test_wellFormed_refuses_timerId :
    (Instr.rdCntl 4).wellFormed = false ∧ (Instr.rdCnth 4).wellFormed = false ∧
    (Instr.rdCtrl 4).wellFormed = false ∧ (Instr.rdUnused 4).wellFormed = false ∧
    (Instr.wrRldl 4 0).wellFormed = false ∧ (Instr.wrRldh 4 0).wellFormed = false ∧
    (Instr.wrCtrl 4 0).wellFormed = false ∧ (Instr.wrUnused 4 0).wellFormed = false := by decide

/-- A negative count is refused (R160). -/
theorem test_wellFormed_refuses_negativeCount : (Instr.adv (-1)).wellFormed = false := by decide

/-! ### Decoding: the words of R81 -/

theorem test_decode_rdCntl : decode ⟨0b00001000, .none⟩ = .ok (.rdCntl 2) := rfl
theorem test_decode_rdCnth : decode ⟨0b00001101, .none⟩ = .ok (.rdCnth 3) := rfl
theorem test_decode_rdCtrl : decode ⟨0b00000110, .none⟩ = .ok (.rdCtrl 1) := rfl
theorem test_decode_rdUnused : decode ⟨0b00001111, .none⟩ = .ok (.rdUnused 3) := rfl
theorem test_decode_wrRldl : decode ⟨0b01000100, .byte 0xCD⟩ = .ok (.wrRldl 1 0xCD) := rfl
theorem test_decode_wrRldh : decode ⟨0b01001001, .byte 0x12⟩ = .ok (.wrRldh 2 0x12) := rfl
theorem test_decode_wrCtrl : decode ⟨0b01001110, .byte 0xC4⟩ = .ok (.wrCtrl 3 0xC4) := rfl
theorem test_decode_wrUnused : decode ⟨0b01000011, .byte 0xAA⟩ = .ok (.wrUnused 0 0xAA) := rfl
theorem test_decode_adv : decode ⟨0b10000000, .count 65791⟩ = .ok (.adv 65791) := rfl
theorem test_decode_reset : decode ⟨0b11000000, .none⟩ = .ok .reset := rfl

/-- BUS-11: reserved words are refused by name. -/
theorem test_decode_reserved :
    ([0x10, 0x30, 0x81, 0x8F, 0xC1, 0xF0] : List Byte).map (fun w => decode ⟨w, .none⟩) =
      ([0x10, 0x30, 0x81, 0x8F, 0xC1, 0xF0] : List Byte).map (fun w => .error (.reserved w)) := rfl

/-- Every row's word is decoded, and step runs it as the first operation after power-up. -/
theorem test_first_step_runs_every_row :
    ([0x00, 0x01, 0x02, 0x03, 0x40, 0x41, 0x42, 0x43, 0x80, 0xC0] : List Nat).all (fun w =>
      (decodeTableWord 8 w).isSome && (seen (fun _ => ()) (step (State.reset.withFetchWord 8 w))).isSome) =
      true := by decide

/-- The payload of a numbered word stands above its command word. -/
theorem test_tableWord_payload :
    decodeTableWord 16 0xAB45 = some (.wrRldh 1 0xAB) ∧ decodeTableWord 8 0xAB45 = some (.wrRldh 1 0) := by
  decide

/-- The pseudo-operation `start` and the notation of R82, R83. -/
theorem test_pseudo_start :
    ((Pseudo.start 0 0x1234 0x80).expand.map Instr.asm) =
      ["wr.rldl t0, 0x34", "wr.rldh t0, 0x12", "wr.ctrl t0, 0x80"] := by decide

/-! ### READ and WRITE -/

/-- BUS-1. -/
theorem test_rdCntl_low_byte :
    seen (·.ports.busRdata) (exec (.rdCntl 0) (one (tm 0 0x1234 0 0 0 false))) = some (some 0x34) := by decide

/-- BUS-1. -/
theorem test_rdCnth_high_byte :
    seen (·.ports.busRdata) (exec (.rdCnth 0) (one (tm 0 0x1234 0 0 0 false))) = some (some 0x12) := by decide

/-- BUS-2 and BUS-3, the READ. -/
theorem test_rdCtrl_packs :
    seen (·.ports.busRdata) (exec (.rdCtrl 2) (one (tm 2 0 0 0xFF 0 false))) = some (some 0xC7) ∧
    seen (·.ports.busRdata) (exec (.rdCtrl 2) (one (tm 2 0 0 0x38 0 false))) = some (some 0x00) := by decide

/-- BUS-4. -/
theorem test_rdUnused_zero :
    seen (·.ports.busRdata) (exec (.rdUnused 1) (one (tm 1 0xFFFF 0xFFFF 0xFF 9 true))) = some (some 0) := by
  decide

/-- BUS-5. -/
theorem test_wrRldl_keeps_high_byte :
    seen (fun t => ((t.timer 1).reload, (t.timer 1).counter))
      (exec (.wrRldl 1 0xCD) (one (tm 1 0x7777 0xAB00 0 0 false))) = some (0xABCD, 0x7777) := by decide

/-- BUS-6. -/
theorem test_wrRldh_keeps_low_byte :
    seen (fun t => ((t.timer 1).reload, (t.timer 1).counter))
      (exec (.wrRldh 1 0xAB) (one (tm 1 0x7777 0x00CD 0 0 false))) = some (0xABCD, 0x7777) := by decide

/-- BUS-2, the WRITE: every field, and the enable edge. -/
theorem test_wrCtrl_enable_edge :
    seen (·.timer 2) (exec (.wrCtrl 2 0xFF) (one (tm 2 0x5555 0x1234 0 7 true))) =
      some { id := 2, counter := 0x1234, reload := 0x1234, frequency := 3, cascade := true,
             interrupt := true, enable := true, shift := 10, mask := 0x3FF, cycles := 7,
             overflow := true } := by decide

/-- BUS-7: `enable = 1` written to an enabled timer is not an edge. -/
theorem test_wrCtrl_no_edge :
    seen (fun t => ((t.timer 0).counter, (t.timer 0).frequency))
      (exec (.wrCtrl 0 0x81) (one (tm 0 0x1234 0x1200 0x80 0 false))) = some (0x1234, 1) := by decide

/-- BUS-4. -/
theorem test_wrUnused_keeps_timer :
    seen (·.timer 1) (exec (.wrUnused 1 0xAA) (one (tm 1 1 2 0x47 3 true))) =
      some (tm 1 1 2 0x47 3 true) := by decide

/-! ### ADVANCE and RESET -/

/-- FR-8 (several wraps, a divisor of 1024) and FR-7 (the last tick before a wrap). -/
theorem test_adv_free_running :
    seen (view 0) (exec (.adv 201326597) (one (tm 0 0 0 0x83 0 false))) =
      some (0x0000, 5, true, some #v[3, 0, 0, 0]) ∧
    seen (view 0) (exec (.adv 0xEFFF) (one (tm 0 0x1000 0xFFFF 0x80 0 false))) =
      some (0xFFFF, 0, false, some #v[0, 0, 0, 0]) := by decide

/-- CA-2 (a wrap ripples to a cascade timer that wraps) and EX-7 (cascade on timer 0). -/
theorem test_adv_cascade :
    seen (view 1) (exec (.adv 1) (two (tm 0 0xFFFF 0 0x80 0 false) (tm 1 0xFFFF 0x1234 0x84 0 false))) =
      some (0x1234, 0, true, some #v[1, 1, 0, 0]) ∧
    seen (view 0) (exec (.adv 1) (two (tm 0 0xFFFF 0 0x80 0 false) (tm 1 0xFFFF 0x1234 0x84 0 false))) =
      some (0x0000, 0, false, some #v[1, 1, 0, 0]) ∧
    seen (view 0) (exec (.adv 100) (one (tm 0 0 0 0x84 0 false))) =
      some (0, 0, false, some #v[0, 0, 0, 0]) := ⟨by decide, by decide, by decide⟩

/-- RST-2: reset discards a stale flag with everything else. -/
theorem test_reset_discards_flag :
    seen (·.timers) (exec .reset (two (tm 2 0xFFFF 0xFFFF 0xC7 1000 true) (tm 3 5 6 0x84 0 false))) =
      some initialTimers := by decide

/-! ### Witnesses: what a step runs -/

/-- Both clauses: a READ word of timer 3 and a WRITE word, and a numbered word. -/
theorem witness_StepRunsDecodedCommand :
    decode ⟨0x0F, .none⟩ = .ok (.rdUnused 3) ∧ decode ⟨0x40, .byte 0xFF⟩ = .ok (.wrRldl 0 0xFF) ∧
      decodeTableWord 8 0xC0 = some .reset := ⟨rfl, rfl, rfl⟩

/-- The lowest offset of the first clause, the lowest index of the second, a command of the third. -/
theorem witness_OffsetsFromThreeAreUnused :
    (∃ (i : Fin 4) (offset : Nat), 3 ≤ offset ∧ offset = 3 ∧ i = 3) ∧ (∃ id : Nat, 4 ≤ id ∧ id = 4) ∧
      decode ⟨0x4F, .byte 1⟩ = .ok (.wrUnused 3 1) :=
  ⟨⟨3, 3, by decide, rfl, rfl⟩, ⟨4, by decide, rfl⟩, rfl⟩

/-- The last two bytes of the window, and all sixteen. -/
theorem witness_WideGuestWriteIsItsByteWrites :
    14 + ([1, 2] : List Byte).length ≤ 16 ∧ 0 + (List.replicate 16 (7 : Byte)).length ≤ 16 := by decide

/-- The last two bytes of the window, and all sixteen. -/
theorem witness_WideGuestReadIsItsByteReads : 14 + 2 ≤ 16 ∧ 0 + 16 ≤ 16 := by decide

/-! ### Witnesses: encoding -/

theorem witness_DecodeEncode :
    ([.rdCntl 0, .rdCnth 3, .rdCtrl 0, .rdUnused 3, .wrRldl 0 0x00, .wrRldh 3 0xFF, .wrCtrl 0 0xFF,
      .wrUnused 3 0x00, .adv 0, .adv 201326597, .reset] : List Instr).all (·.wellFormed) = true := by decide

theorem witness_EncodeDecode :
    decode ⟨0x00, .none⟩ = .ok (.rdCntl 0) ∧ decode ⟨0x80, .count 0⟩ = .ok (.adv 0) := ⟨rfl, rfl⟩

/-- Each alternative of the first clause, and the two extreme words of the second. -/
theorem witness_ReservedWordsRefused :
    (0x10 : Byte).extractLsb' 4 2 ≠ 0 ∧
    ((0x81 : Byte).extractLsb' 7 1 = 1 ∧ (0x81 : Byte).extractLsb' 0 4 ≠ 0) ∧
    ¬((0x00 : Byte).extractLsb' 4 2 ≠ 0 ∨
      ((0x00 : Byte).extractLsb' 7 1 = 1 ∧ (0x00 : Byte).extractLsb' 0 4 ≠ 0)) ∧
    ¬((0xC0 : Byte).extractLsb' 4 2 ≠ 0 ∨
      ((0xC0 : Byte).extractLsb' 7 1 = 1 ∧ (0xC0 : Byte).extractLsb' 0 4 ≠ 0)) := by decide

theorem witness_OpcodeMapUnambiguous :
    decode ⟨0x46, .byte 0x84⟩ = .ok (.wrCtrl 1 0x84) ∧ isReserved 0xFF = true := ⟨rfl, by decide⟩

/-! ### Witnesses: READ and WRITE

The out-of-range clause of each form at its lowest index, with the fault of BUS-10. -/

theorem witness_RdCntlAnswersLowByte :
    3 < 4 ∧ exec (.rdCntl 4) State.reset = .fault (.invalidArgument (.timerId 4)) := ⟨by decide, rfl⟩
theorem witness_RdCnthAnswersHighByte :
    3 < 4 ∧ exec (.rdCnth 4) State.reset = .fault (.invalidArgument (.timerId 4)) := ⟨by decide, rfl⟩
theorem witness_RdCtrlAnswersControlByte :
    3 < 4 ∧ exec (.rdCtrl 4) State.reset = .fault (.invalidArgument (.timerId 4)) := ⟨by decide, rfl⟩
/-- Also an offset above 3. -/
theorem witness_RdUnusedAnswersZero :
    3 < 4 ∧ exec (.rdUnused 4) State.reset = .fault (.invalidArgument (.timerId 4)) ∧
      3 ≤ 3 ∧ Instr.ofRead 0 3 = .rdUnused 0 := ⟨by decide, rfl, by decide, rfl⟩
theorem witness_WrRldlReplacesLowByte :
    3 < 4 ∧ exec (.wrRldl 4 0) State.reset = .fault (.invalidArgument (.timerId 4)) := ⟨by decide, rfl⟩
theorem witness_WrRldhReplacesHighByte :
    3 < 4 ∧ exec (.wrRldh 4 0) State.reset = .fault (.invalidArgument (.timerId 4)) := ⟨by decide, rfl⟩
theorem witness_WrCtrlDecodesControlByte :
    3 < 4 ∧ exec (.wrCtrl 4 0) State.reset = .fault (.invalidArgument (.timerId 4)) := ⟨by decide, rfl⟩
theorem witness_WrUnusedChangesNothing :
    3 < 4 ∧ exec (.wrUnused 4 0) State.reset = .fault (.invalidArgument (.timerId 4)) ∧
      3 ≤ 3 ∧ Instr.ofWrite 0 3 7 = .wrUnused 0 7 := ⟨by decide, rfl, by decide, rfl⟩

/-- A control WRITE to another timer between the two READs. -/
theorem witness_TwoReadsAnswerOneCounterValue :
    (Instr.wrCtrl 1 0x80).wellFormed = true ∧ (∀ v : Byte, Instr.wrCtrl 1 0x80 ≠ .wrCtrl (0 : Fin 4).val v) ∧
      (∀ n : Int, Instr.wrCtrl 1 0x80 ≠ .adv n) ∧ Instr.wrCtrl 1 0x80 ≠ .reset := by
  refine ⟨by decide, fun v h => ?_, fun n h => ?_, by decide⟩ <;> cases h

/-- Two states that differ in every other field of timer 1. -/
theorem witness_ReadsSeeOnlyCounterAndControl :
    let s := one (tm 1 0x1234 0 0xC6 0 false)
    let s' := State.reset.setTimer 1 { tm 1 0x1234 0xFFFF 0xC6 1023 true with shift := 0, mask := 0 }
    s ≠ s' ∧ (s.timer 1).counter = (s'.timer 1).counter ∧ (s.timer 1).frequency = (s'.timer 1).frequency ∧
      (s.timer 1).cascade = (s'.timer 1).cascade ∧ (s.timer 1).interrupt = (s'.timer 1).interrupt ∧
      (s.timer 1).enable = (s'.timer 1).enable := by
  refine ⟨fun h => ?_, by decide⟩
  have := congrArg (fun s : State => (s.timer 1).reload) h
  revert this; decide

/-- EX-2: the enable edge loads the counter. -/
theorem witness_OnlyEnableEdgeChangesCounter :
    ∃ t, exec (.wrCtrl 0 0x80) (one (tm 0 0 0x1234 0 0 false)) = .next t ∧
      Instr.wrCtrl 0 0x80 ≠ .reset ∧ (∀ n : Int, Instr.wrCtrl 0 0x80 ≠ .adv n) ∧
      (t.timer 0).counter ≠ ((one (tm 0 0 0x1234 0 0 false)).timer 0).counter :=
  ⟨_, rfl, by decide, fun n h => Instr.noConfusion h, by decide⟩

/-- A WRITE of another timer's control byte, and an ADVANCE. -/
theorem witness_ControlByteReadsBack :
    ((Instr.wrCtrl 1 0x00).wellFormed = true ∧
      (∀ w : Byte, Instr.wrCtrl 1 0x00 ≠ .wrCtrl (0 : Fin 4).val w) ∧ Instr.wrCtrl 1 0x00 ≠ .reset) ∧
    ((Instr.adv 5).wellFormed = true ∧ (∀ w : Byte, Instr.adv 5 ≠ .wrCtrl (0 : Fin 4).val w) ∧
      Instr.adv 5 ≠ .reset) := by
  refine ⟨⟨by decide, fun v h => ?_, by decide⟩, by decide, fun v h => ?_, by decide⟩ <;> cases h

/-- BUS-8, on a running timer. -/
theorem witness_DisableThenEnableReloads :
    (0x01 : Byte).getLsbD 7 = false ∧ (0x81 : Byte).getLsbD 7 = true ∧
      ((one (tm 0 0x1234 0x1200 0x80 0 false)).timer 0).enable = true := by decide

/-- BUS-12. -/
theorem witness_ReloadBeforeControlStartsFromNewReload :
    (State.reset.timer 0).enable = false ∧ (0x80 : Byte).getLsbD 7 = true := by decide

/-- HZ-1: the wrap of a running timer, one tick on either side of it, and a disabled timer. -/
theorem witness_ReloadWriteIsDeferred :
    (let t := (one (tm 0 0xFFFF 0x0000 0x80 0 false)).timer 0;
      Instr.wrRldl 0 0x34 = .wrRldl (0 : Fin 4).val 0x34 ∧ (0x0034 : HalfWord) = t.reload.extractLsb' 8 8 ++ 0x34#8 ∧
        t.enable = true ∧ t.cascade = false ∧
        (t.cycles + 0) >>> t.shift < 0x10000 - t.counter.toNat ∧
        0x10000 - t.counter.toNat ≤ (t.cycles + 1) >>> t.shift) ∧
    (let t := (one (tm 0 0xFFFF 0x0034 0x00 0 false)).timer 0;
      Instr.wrRldh 0 0x12 = .wrRldh (0 : Fin 4).val 0x12 ∧ (0x1234 : HalfWord) = 0x12#8 ++ t.reload.extractLsb' 0 8 ∧
        t.enable = false ∧ (0x80 : Byte).getLsbD 7 = true) := by decide

/-! ### Witnesses: ADVANCE -/

/-- FR-9, and CA-5's disabled timer whose flag is consumed. -/
theorem witness_AdvanceSkipsDisabledTimer :
    ((one (tm 0 0x0100 0 0x03 1000 true)).timer 0).enable = false ∧
    (let s := two (tm 2 0xFFFF 0xFFFF 0x00 0 true) (tm 3 0 0 0x84 0 false);
      (s.timer 2).enable = false ∧ (s.timer 2).overflow = true ∧ successorCascades s 2 = true) ∧
    (let p := startPass (one (tm 2 0xFFFF 0xFFFF 0x00 0 true));
      (p.timer 2).enable = false ∧ (p.timer 2).overflow = true) := by decide

/-- Two counts on one state, on either side of the wrap: one tick less than the span, and the span. -/
theorem witness_AdvanceCountsFreeRunningTimer :
    let t := (one (tm 0 0xFFFE 0x0000 0x80 0 false)).timer 0
    t.enable = true ∧ t.cascade = false ∧
      (t.cycles + 1) >>> t.shift < 0x10000 - t.counter.toNat ∧
      0x10000 - t.counter.toNat ≤ (t.cycles + 2) >>> t.shift := by decide

/-- The same two counts. -/
theorem witness_AdvanceCountsWraps :
    let t := (one (tm 0 0xFFFE 0xFFFF 0x80 0 false)).timer 0
    t.enable = true ∧ t.cascade = false ∧
      (t.cycles + 1) >>> t.shift < 0x10000 - t.counter.toNat ∧
      ¬ (t.cycles + 2) >>> t.shift < 0x10000 - t.counter.toNat := by decide

/-- FR-12's state: in order, with a leftover above the mask. -/
theorem witness_NoCycleIsLost :
    let s := one (tm 0 0 0 0x80 1000 false)
    s.Inv ∧ (s.timer 0).enable = true ∧ (s.timer 0).cascade = false ∧
      ¬ (s.timer 0).cycles ≤ (s.timer 0).mask :=
  ⟨inv_of_timers (forall_fin4 ⟨rfl, rfl, rfl, by decide⟩ ⟨rfl, rfl, rfl, by decide⟩ ⟨rfl, rfl, rfl, by decide⟩
    ⟨rfl, rfl, rfl, by decide⟩) rfl, by decide, by decide, by decide⟩

/-- CA-1, and the same of the last pair. -/
theorem witness_CascadeWaitsForPredecessor :
    (let s := two (tm 0 0 0 0x80 0 false) (tm 1 0 0 0x84 0 false);
      (s.timer 1).enable = true ∧ (s.timer 1).cascade = true ∧ incomingFlag 100 s 1 = false) ∧
    (let s := two (tm 2 0 0 0x84 0 false) (tm 3 0 0 0x84 0 true);
      (s.timer 3).enable = true ∧ (s.timer 3).cascade = true ∧ incomingFlag 100 s 3 = false) ∧
    (let p := startPass (two (tm 0 0 0 0x80 0 false) (tm 1 0 0 0x84 0 false));
      (p.timer 1).enable = true ∧ (p.timer 1).cascade = true ∧ (p.timer 0).overflow = false) := by decide

/-- EX-6 (a tick) and CA-2 (a wrap). -/
theorem witness_CascadeTicksOnPredecessorOverflow :
    (let s := two (tm 0 0xFFFF 0 0x80 0 false) (tm 1 0xFFFE 0 0x84 0 false);
      (s.timer 1).enable = true ∧ (s.timer 1).cascade = true ∧ incomingFlag 1 s 1 = true ∧
        (s.timer 1).counter ≠ 0xFFFF) ∧
    (let s := two (tm 0 0xFFFF 0 0x80 0 false) (tm 1 0xFFFF 0x1234 0xC4 0 false);
      (s.timer 1).enable = true ∧ (s.timer 1).cascade = true ∧ incomingFlag 1 s 1 = true ∧
        (s.timer 1).counter = 0xFFFF) := by decide

/-- EX-7, here with a flag left from an earlier call. -/
theorem witness_CascadeOnTimerZeroStandsStill :
    let s := one (tm 0 0 0 0x84 0 true)
    (s.timer 0).enable = true ∧ (s.timer 0).cascade = true := by decide

/-- The last three clauses: a leftover that changes, a counter that changes, and flags that change, of an
enabled timer and (CA-5) of a disabled one. -/
theorem witness_AdvanceFrame :
    let s := one (tm 0 0 0 0x81 62 false)
    seen (fun t => decide ((t.timer 0).cycles ≠ (s.timer 0).cycles)) (exec (.adv 1) s) = some true ∧
      seen (fun t => decide ((t.timer 0).counter ≠ (s.timer 0).counter)) (exec (.adv 2) s) = some true ∧
      seen (fun t => (t.timer 0).overflow) (exec (.adv 0) (one (tm 0 0 0 0x80 0 true))) = some false ∧
      seen (fun t => (t.timer 2).overflow)
        (exec (.adv 1) (two (tm 2 0xFFFF 0xFFFF 0x00 0 true) (tm 3 0 0 0x84 0 false))) = some false :=
  ⟨by decide, by decide, by decide, by decide⟩

/-- FR-1 (no leftover above the mask) and FR-12 (1000 cycles left at divisor 1). -/
theorem witness_AdvanceZeroCountsOnlyLeftover :
    (let t := (one (tm 0 0 0 0x81 63 true)).timer 0;
      t.enable = true ∧ t.cascade = false ∧ t.cycles < 2 ^ t.shift) ∧
    (let t := (one (tm 0 0 0 0x80 1000 false)).timer 0;
      t.enable = true ∧ t.cascade = false ∧ t.cycles >>> t.shift < 0x10000 - t.counter.toNat ∧
        ¬ t.cycles < 2 ^ t.shift) := by decide

/-- FR-11's edge with 1000 cycles left: 23 more are too few, 24 and 1047 are one tick. -/
theorem witness_FirstTickComesEarlyByLeftover :
    let t := (one (tm 0 7 0 0x03 1000 false)).timer 0
    let divisor := [1, 64, 256, 1024].getD ((0x83 : Byte).extractLsb' 0 2).toNat 1
    t.enable = false ∧ (0x83 : Byte).getLsbD 7 = true ∧ (0x83 : Byte).getLsbD 2 = false ∧
      t.reload ≠ 0xFFFF ∧ t.cycles + 23 < divisor ∧
      (divisor ≤ t.cycles + 24 ∧ t.cycles + 24 < 2 * divisor) ∧
      (divisor ≤ t.cycles + 1047 ∧ t.cycles + 1047 < 2 * divisor) := by decide

/-- IRQ-1: a request bit is gained; IRQ-3: a bit that is 1 stays. -/
theorem witness_IFOnlyGainsRequestBits :
    (∃ t, exec (.adv 5) (one (tm 0 0xFFFE 0xFFFE 0xC0 0 false)) = .next t ∧
      t.IF.getLsbD Config.irqBase = true ∧
      (one (tm 0 0xFFFE 0xFFFE 0xC0 0 false)).IF.getLsbD Config.irqBase = false) ∧
    (∃ t, exec .reset { State.reset with IF := requestBit 0 } = .next t ∧
      ({ State.reset with IF := requestBit 0 } : State).IF.getLsbD Config.irqBase = true) := by
  have hb : (requestBit 0).getLsbD Config.irqBase = true := by
    have := Config.irqBaseFin.isLt
    simp only [requestBit, BitVec.getLsbD_twoPow, Config.irqBase, Config.irqWidth]
    simp; omega
  refine ⟨⟨_, rfl, ?_, ?_⟩, _, rfl, hb⟩
  · change ((0 : IrqWord) ||| requestBit 0).getLsbD Config.irqBase = true
    rw [BitVec.getLsbD_or, hb, Bool.or_true]
  · change (0 : IrqWord).getLsbD Config.irqBase = false
    simp

theorem witness_IFDoesNotInfluenceTheBlock :
    ∃ t, exec (.adv 1) (one (tm 0 0xFFFF 0xFFFF 0xC0 0 false)) = .next t ∧ t.ports.wraps.isSome = true :=
  ⟨_, rfl, rfl⟩

/-- FR-6's state. -/
theorem witness_FreeRunningIsBatchIndependent :
    let s := one (tm 0 0xFFFE 0xFFFE 0xC0 0 false)
    s.Inv ∧ (s.timer 0).enable = true ∧ (s.timer 0).cascade = false :=
  ⟨inv_of_timers (forall_fin4 ⟨rfl, rfl, rfl, by decide⟩ ⟨rfl, rfl, rfl, by decide⟩ ⟨rfl, rfl, rfl, by decide⟩
    ⟨rfl, rfl, rfl, by decide⟩) rfl, by decide, by decide⟩

/-- A leftover of exactly the mask. -/
theorem witness_AdvanceMatchesCycleByCycleReference :
    let s := one (tm 3 0xFFFE 0xFFFE 0xC1 63 false)
    s.Inv ∧ (s.timer 3).enable = true ∧ (s.timer 3).cascade = false ∧
      (s.timer 3).cycles ≤ (s.timer 3).mask ∧ (s.timer 3).mask ≤ (s.timer 3).cycles :=
  ⟨inv_of_timers (forall_fin4 ⟨rfl, rfl, rfl, by decide⟩ ⟨rfl, rfl, rfl, by decide⟩ ⟨rfl, rfl, rfl, by decide⟩
    ⟨rfl, rfl, rfl, by decide⟩) rfl, by decide, by decide, by decide, by decide⟩

/-- Timer 0, and CA-3's timer 1. -/
theorem witness_CascadeGainsAtMostOneTick :
    let s := two (tm 0 0xFFFF 0xFFFF 0x84 0 false) (tm 1 0 0 0x84 0 false)
    (s.timer 0).enable = true ∧ (s.timer 0).cascade = true ∧
      (s.timer 1).enable = true ∧ (s.timer 1).cascade = true := by decide

/-- CA-4's first pair: the predecessor does wrap. -/
theorem witness_WrapReachesCascadeSuccessorInSameAdvance :
    let s := two (tm 0 0xFFFF 0xFFFF 0x80 0 false) (tm 1 0xFFFF 0xFFFF 0xC4 0 false)
    (0 : Fin 4).val + 1 = (1 : Fin 4).val ∧ (s.timer 1).enable = true ∧ (s.timer 1).cascade = true ∧
      seen (fun t => t.ports.wraps.map (·[0])) (exec (.adv 1) s) = some (some 1) := by decide

/-- CA-5. -/
theorem witness_StaleFlagCountsOnce :
    let s := two (tm 2 0xFFFF 0xFFFF 0x00 0 true) (tm 3 0xFFFE 0 0x84 0 false)
    (2 : Fin 4).val + 1 = (3 : Fin 4).val ∧ (s.timer 2).enable = false ∧ (s.timer 2).overflow = true ∧
      (s.timer 3).enable = true ∧ (s.timer 3).cascade = true ∧ (s.timer 3).counter ≠ 0xFFFF := by decide

/-- CA-8. -/
theorem witness_CascadeIgnoresDivisorState :
    let s := two (tm 0 0xFFFF 0xFFFF 0x80 0 false) (tm 1 5 0 0x87 17 false)
    (s.timer 1).enable = true ∧ (s.timer 1).cascade = true := by decide

/-- CA-3's period of 1, at the largest batch. -/
theorem witness_SmallBatchWrapsAtMostOnce :
    let s := one (tm 0 0xFFFF 0xFFFF 0x81 63 false)
    s.Inv ∧ (s.timer 0).enable = true ∧ (s.timer 0).cascade = false ∧
      (s.timer 0).cycles ≤ (s.timer 0).mask ∧
      64 ≤ (0x10000 - (s.timer 0).reload.toNat) * 2 ^ (s.timer 0).shift ∧
      (0x10000 - (s.timer 0).reload.toNat) * 2 ^ (s.timer 0).shift ≤ 64 :=
  ⟨inv_of_timers (forall_fin4 ⟨rfl, rfl, rfl, by decide⟩ ⟨rfl, rfl, rfl, by decide⟩ ⟨rfl, rfl, rfl, by decide⟩
    ⟨rfl, rfl, rfl, by decide⟩) rfl, by decide, by decide, by decide, by decide, by decide⟩

/-! ### Witnesses: the whole machine -/

/-- The indexes 3 and 4, the counts 0 and -1. -/
theorem witness_FaultExactlyOnContractViolation :
    (Instr.rdCntl 3).wellFormed = true ∧ (Instr.adv 0).wellFormed = true ∧
      (Instr.rdCntl 4).wellFormed = false ∧ (Instr.wrUnused 5 0xFF).wellFormed = false ∧
      (Instr.adv (-1)).wellFormed = false := by decide

/-- Each of the four cases: an edge, a free-running step, a cascade step, RESET. -/
theorem witness_CounterChangesInFourCasesOnly :
    (let s := one (tm 0 0 0x1234 0 0 false);
      seen (fun t => decide ((t.timer 0).counter ≠ (s.timer 0).counter)) (exec (.wrCtrl 0 0x80) s) = some true) ∧
    (let s := two (tm 0 0xFFFF 0 0x80 0 false) (tm 1 5 0 0x84 0 false);
      seen (fun t => decide ((t.timer 0).counter ≠ (s.timer 0).counter)) (exec (.adv 1) s) = some true ∧
      seen (fun t => decide ((t.timer 1).counter ≠ (s.timer 1).counter)) (exec (.adv 1) s) = some true ∧
      seen (fun t => decide ((t.timer 1).counter ≠ (s.timer 1).counter)) (exec .reset s) = some true) :=
  ⟨by decide, by decide, by decide, by decide⟩

/-- Each clause: a reload byte, a control byte, a leftover, a flag set, a flag cleared. -/
theorem witness_HiddenFieldWriters :
    (let s := one (tm 0 0xFFFF 0 0x81 62 false);
      seen (fun t => decide ((t.timer 0).reload ≠ (s.timer 0).reload)) (exec (.wrRldh 0 1) s) = some true ∧
      seen (fun t => decide ((t.timer 0).shift ≠ (s.timer 0).shift)) (exec (.wrCtrl 0 0) s) = some true ∧
      seen (fun t => decide ((t.timer 0).cycles ≠ (s.timer 0).cycles)) (exec (.adv 1) s) = some true ∧
      seen (fun t => (t.timer 0).overflow) (exec (.adv 2) s) = some true) ∧
    seen (fun t => (t.timer 0).overflow) (exec (.adv 0) (one (tm 0 0 0 0x80 0 true))) = some false :=
  ⟨⟨by decide, by decide, by decide, by decide⟩, by decide⟩

/-- A state in order with a command to run, whose leftover is the greatest. -/
theorem witness_StepKeepsInvariant :
    ∃ t, ({ one (tm 0 0xFFFF 0xFFFF 0xC3 0x3FF false) with
        inputs := [.command ⟨0x80, .count 1⟩] } : State).Inv ∧
      step { one (tm 0 0xFFFF 0xFFFF 0xC3 0x3FF false) with inputs := [.command ⟨0x80, .count 1⟩] } = .next t :=
  ⟨_, inv_of_timers (forall_fin4 ⟨rfl, rfl, rfl, by decide⟩ ⟨rfl, rfl, rfl, by decide⟩ ⟨rfl, rfl, rfl, by decide⟩
    ⟨rfl, rfl, rfl, by decide⟩) rfl, rfl⟩

/-- A list of moves of every kind, the invariant beside it. -/
theorem witness_ContractKeepsEveryRunGoing :
    let s : State := { State.reset with
      inputs := [.command ⟨0x4C, .byte 0xFF⟩, .write 3 2 0xC0, .advance 0, .read 3 7,
        .guestRead (Config.timerBase + 12) 4, .guestWrite (Config.timerBase + 12) [1, 2],
        .interruptController 0 1, .reset] }
    s.InContract ∧ s.Inv := by
  refine ⟨?_, inv_of_timers (forall_fin4 ⟨rfl, rfl, rfl, by decide⟩ ⟨rfl, rfl, rfl, by decide⟩
    ⟨rfl, rfl, rfl, by decide⟩ ⟨rfl, rfl, rfl, by decide⟩) rfl⟩
  intro x hx
  simp only [List.mem_cons, List.not_mem_nil, or_false] at hx
  rcases hx with rfl | rfl | rfl | rfl | rfl | rfl | rfl | rfl <;> decide

end Sys2Proof.Tests
end

section
/-!
PROOFS of 10_state.md: the four writers of a counter (R22) and the reset values of the control fields (R26).
-/

namespace Sys2Proof.Machine

/-! ### RESET and the reset values (R26, R36) -/

@[simp] theorem Timer.initial_counter (i : Fin 4) : (Timer.initial i).counter = 0 := rfl

/-- A timer at its reset record has all control flags false and `frequency` 0 (R26). -/
theorem Timer.initial_control (i : Fin 4) :
    (Timer.initial i).cascade = false ∧ (Timer.initial i).interrupt = false ∧
      (Timer.initial i).enable = false ∧ (Timer.initial i).frequency = 0 := ⟨rfl, rfl, rfl, rfl⟩

/-- RESET leaves every timer at its reset record (70_reset_and_hazards.md R180). -/
@[simp] theorem timer_afterReset (s : State) (i : Fin 4) :
    (({ s with timers := initialTimers } : State).quiet).timer i = Timer.initial i :=
  timerAt_initialTimers i

/-- Settles O49: every timer is at its reset record, at power-up and after RESET. -/
theorem resetClearsControlFields : Obligations.ResetClearsControlFields := by
  refine ⟨fun i => ?_, fun s => ⟨_, exec_reset s, fun i => ?_⟩⟩
  · rw [State.reset_timer]
    exact Timer.initial_control i
  · rw [timer_afterReset]
    exact Timer.initial_control i

/-! ### Who changes a counter (R22) -/

/-- A reload WRITE changes no counter (R22, 40_bus_interface.md R105 and R106). -/
theorem counter_setTimer_reload (s : State) (i j : Fin 4) (r : HalfWord) :
    ((s.setTimer i { s.timer i with reload := r }).timer j).counter = (s.timer j).counter := by
  rw [State.timer_setTimer]
  split
  · subst j; rfl
  · rfl

@[simp] theorem consume_counter (c : Bool) (t : Timer) : (consume c t).counter = t.counter := rfl

/-- Timer 0 finds no flag: it has no predecessor (42_cascade.md R141). -/
theorem incomingFlag_zero (n : Nat) (s : State) : incomingFlag n s 0 = false := rfl

/-- A visit changes the counter only of a free-running timer, or of a cascade timer whose predecessor's flag
is true. -/
theorem visited_counter_ne {n : Nat} {prev : Bool} {t : Timer}
    (h : (visited n prev t).1.counter ≠ t.counter) :
    (t.enable = true ∧ t.cascade = false) ∨ (t.enable = true ∧ t.cascade = true ∧ prev = true) := by
  rcases t.cases_step with hd | hf | hc
  · rw [visited_disabled hd] at h
    exact absurd rfl h
  · exact .inl (Timer.freeRunning_iff.1 hf)
  · obtain ⟨he, hcas⟩ := Timer.cascading_iff.1 hc
    cases prev with
    | false =>
      rw [visited_cascade_false he hcas] at h
      exact absurd rfl h
    | true => exact .inr ⟨he, hcas, rfl⟩

/-- An ADVANCE changes the counter only of a timer that its own visit changes, so a cascade timer among them
stands above timer 0. -/
theorem afterAdvance_counter_ne {n : Nat} {s : State} {j : Fin 4}
    (h : ((afterAdvance n s).timer j).counter ≠ (s.timer j).counter) :
    ((s.timer j).enable = true ∧ (s.timer j).cascade = false) ∨
      ((s.timer j).enable = true ∧ (s.timer j).cascade = true ∧ j ≠ 0 ∧ incomingFlag n s j = true) := by
  rw [afterAdvance_timer, consume_counter] at h
  obtain hfree | ⟨he, hcas, hflag⟩ := visited_counter_ne h
  · exact .inl hfree
  · have hj : j ≠ 0 := by
      rintro rfl
      rw [incomingFlag_zero] at hflag
      cases hflag
    exact .inr ⟨he, hcas, hj, hflag⟩

/-- A control WRITE changes a counter only of its own timer, at an enable edge, to `reload`
(40_bus_interface.md R107). -/
theorem setTimer_writeControl_counter_ne {s : State} {i j : Fin 4} {v : Byte}
    (h : ((s.setTimer i (writeControl (s.timer i) v)).timer j).counter ≠ (s.timer j).counter) :
    i = j ∧ (s.timer j).enable = false ∧ v.getLsbD 7 = true ∧
      ((s.setTimer i (writeControl (s.timer i) v)).timer j).counter = (s.timer j).reload := by
  by_cases hij : i = j
  · subst hij
    rw [State.timer_setTimer_self, writeControl_counter] at h ⊢
    by_cases hedge : (s.timer i).enable = false ∧ v.getLsbD 7 = true
    · exact ⟨rfl, hedge.1, hedge.2, if_pos hedge⟩
    · rw [if_neg hedge] at h
      exact absurd rfl h
  · rw [State.timer_setTimer_ne _ _ hij] at h
    exact absurd rfl h

/-- Settles O53, by the ten cases of `exec_next`: a READ and `wr.unused` write no timer, a reload WRITE keeps
the counter, and the other three operations are the four cases of R22. -/
theorem counterChangesInFourCasesOnly : Obligations.CounterChangesInFourCasesOnly := by
  refine ⟨fun i s t j h hne => ?_, fun s j => ?_, fun j => ?_⟩
  · obtain ⟨k, -, rfl⟩ | ⟨k, -, rfl⟩ | ⟨k, -, rfl⟩ | ⟨k, -, rfl⟩ | ⟨k, v, -, rfl⟩ | ⟨k, v, -, rfl⟩ |
      ⟨k, v, rfl, rfl⟩ | ⟨k, v, -, rfl⟩ | ⟨n, rfl, rfl⟩ | ⟨rfl, rfl⟩ := exec_next h
    · exact (hne rfl).elim
    · exact (hne rfl).elim
    · exact (hne rfl).elim
    · exact (hne rfl).elim
    · exact (hne (counter_setTimer_reload s k j _)).elim
    · exact (hne (counter_setTimer_reload s k j _)).elim
    · obtain ⟨rfl, henable, hbit, hload⟩ := setTimer_writeControl_counter_ne hne
      exact .inl ⟨v, rfl, henable, hbit, hload⟩
    · exact (hne rfl).elim
    · obtain ⟨henable, hfree⟩ | hcascade := afterAdvance_counter_ne hne
      · exact .inr (.inl ⟨n, rfl, henable, hfree⟩)
      · exact .inr (.inr (.inl ⟨n, rfl, hcascade⟩))
    · exact .inr (.inr (.inr ⟨rfl, by rw [timer_afterReset, Timer.initial_counter]⟩))
  · exact ⟨_, _, exec_rdCntl j s, exec_rdCnth j s, State.answer_busRdata .., State.answer_busRdata ..⟩
  · rw [State.reset_timer, Timer.initial_counter]

end Sys2Proof.Machine
end

section
/-!
PROOFS of 30_encoding.md: the reserved command words (R72), and register offsets and indexes at the source's
interface (R73).
-/

namespace Sys2Proof.Machine

/-- A step with a move listed makes that move (20_memory.md R60). -/
theorem step_cons (s : State) (x : Input) (rest : List Input) :
    step { s with inputs := x :: rest } = applyInput x { s with inputs := rest } := rfl

/-! ### Reserved command words (R72) -/

/-- The decoder's test in the terms of R72: by the two reserved bits, or by the low bits of an ADVANCE or
RESET word. -/
theorem isReserved_iff (w : Byte) :
    isReserved w = true ↔
      w.extractLsb' 4 2 ≠ 0 ∨ (w.extractLsb' 7 1 = 1 ∧ w.extractLsb' 0 4 ≠ 0) := by
  have hbit : w.getLsbD 7 = true ↔ w.extractLsb' 7 1 = 1 := by
    simp [BitVec.eq_of_getLsbD_eq_iff]
  rw [isReserved, Bool.or_eq_true, Bool.and_eq_true, hbit, bne_iff_ne, bne_iff_ne]
  rfl

theorem decode_reserved {w : Byte} (h : isReserved w = true) (p : Payload) :
    decode ⟨w, p⟩ = .error (.reserved w) := if_pos h

theorem presentCommand_reserved {w : Byte} (h : isReserved w = true) (p : Payload) (s : State) :
    presentCommand ⟨w, p⟩ s = .refused (.reservedCommand w) := by
  rw [presentCommand, decode_reserved h]

/-- A word that is not reserved decodes with a payload of its kind (R71), one of them for each kind. -/
theorem exists_decode_of_not_reserved {w : Byte} (h : isReserved w = false) :
    ∃ (p : Payload) (i : Instr), decode ⟨w, p⟩ = .ok i := by
  cases hk : kindOf w with
  | read => exact ⟨.none, .ofRead (idOf w) (offsetOf w), by simp [decode, h, hk]⟩
  | write => exact ⟨.byte 0, .ofWrite (idOf w) (offsetOf w) 0, by simp [decode, h, hk]⟩
  | advance => exact ⟨.count 0, .adv 0, by simp [decode, h, hk]⟩
  | reset => exact ⟨.none, .reset, by simp [decode, h, hk]⟩

/-- How many of the 64 command words from `first` on, those of one kind, are reserved. -/
def reservedFrom (first : Nat) : Nat :=
  (List.range' first 64).countP fun k => isReserved (BitVec.ofNat 8 k)

theorem reservedFrom_read : reservedFrom 0 = 48 := by decide
theorem reservedFrom_write : reservedFrom 64 = 48 := by decide
theorem reservedFrom_advance : reservedFrom 128 = 63 := by decide
theorem reservedFrom_reset : reservedFrom 192 = 63 := by decide

/-- The command words kind by kind (R70). -/
theorem range_256_by_kind :
    List.range 256 =
      List.range' 0 64 ++ (List.range' 64 64 ++ (List.range' 128 64 ++ List.range' 192 64)) := by
  rw [List.range'_append_1 (s := 128), List.range'_append_1 (s := 64), List.range'_append_1 (s := 0),
    List.range_eq_range']

/-- Not reserved are 16 words each of READ and WRITE, and one each of ADVANCE and RESET (R72). -/
theorem countP_isReserved : ((List.range 256).countP fun k => isReserved (BitVec.ofNat 8 k)) = 222 :=
  calc ((List.range 256).countP fun k => isReserved (BitVec.ofNat 8 k))
      = reservedFrom 0 + (reservedFrom 64 + (reservedFrom 128 + reservedFrom 192)) := by
        rw [range_256_by_kind, List.countP_append, List.countP_append, List.countP_append]
        rfl
    _ = 222 := by
        rw [reservedFrom_read, reservedFrom_write, reservedFrom_advance, reservedFrom_reset]

/-- Settles O10: `isReserved_iff` turns both conditions into the test the decoder makes. -/
theorem reservedWordsRefused : Obligations.ReservedWordsRefused := by
  refine ⟨fun s w p rest h => ?_, fun w h => ?_, countP_isReserved⟩
  · rw [step_cons]
    exact presentCommand_reserved ((isReserved_iff w).2 h) p _
  · rw [← isReserved_iff, Bool.not_eq_true] at h
    exact exists_decode_of_not_reserved h

/-! ### Offsets from 3 on, and indexes outside 0..3, at the source's interface (R73, R100) -/

/-- A READ of an offset from 3 on answers 0 (40_bus_interface.md R104). -/
theorem exec_ofRead_unused {offset : Nat} (h : 3 ≤ offset) (i : Fin 4) (s : State) :
    exec (.ofRead i.val offset) s = .next (s.answer 0x00) := by
  rw [Instr.ofRead_of_ge h, exec_rdUnused]

/-- A WRITE to an offset from 3 on only empties the outputs (40_bus_interface.md R108). -/
theorem exec_ofWrite_unused {offset : Nat} (h : 3 ≤ offset) (i : Fin 4) (v : Byte) (s : State) :
    exec (.ofWrite i.val offset v) s = .next s.quiet := by
  rw [Instr.ofWrite_of_ge h, exec_wrUnused]

/-- Settles O3: such an offset runs the unused form, such an index fails the check of R100 at every
offset, and what decodes is well formed. -/
theorem offsetsFromThreeAreUnused : Obligations.OffsetsFromThreeAreUnused := by
  refine ⟨fun s rest i offset v h => ⟨?_, ?_⟩, fun s rest id offset v h => ⟨?_, ?_⟩,
    fun _ _ => wellFormed_of_decode⟩
  · exact exec_ofRead_unused h i { s with inputs := rest }
  · exact exec_ofWrite_unused h i v { s with inputs := rest }
  · exact exec_ofRead_of_ge h offset { s with inputs := rest }
  · exact exec_ofWrite_of_ge h offset v { s with inputs := rest }

end Sys2Proof.Machine
end

section
/-!
PROOFS of 40_bus_interface.md: what each READ answers (R101 to R104), what each WRITE changes (R105 to R108),
with its word and its fault (R100), and the two bytes of one counter value (R102).
-/

namespace Sys2Proof.Machine

/-! ### The words of the READs and WRITEs (30_encoding.md R70, R81) -/

/-- A READ word is the number `0000iioo`, a WRITE word `0100iioo`. -/
theorem commandWord_eq_ofNat (i offset : Fin 4) :
    commandWord .read i.val offset.val = BitVec.ofNat 8 (4 * i.val + offset.val) ∧
      commandWord .write i.val offset.val = BitVec.ofNat 8 (0x40 + offset.val + 4 * i.val) := by
  revert i offset; decide

theorem decode_ofNat_read (i offset : Fin 4) :
    decode ⟨BitVec.ofNat 8 (4 * i.val + offset.val), .none⟩ = .ok (.ofRead i.val offset.val) := by
  rw [← (commandWord_eq_ofNat i offset).1]
  exact decode_read_word i.isLt offset.isLt

theorem decode_ofNat_write (i offset : Fin 4) (v : Byte) :
    decode ⟨BitVec.ofNat 8 (0x40 + offset.val + 4 * i.val), .byte v⟩ =
      .ok (.ofWrite i.val offset.val v) := by
  rw [← (commandWord_eq_ofNat i offset).2]
  exact decode_write_word i.isLt offset.isLt v

/-! ### Operands of the bus interface (R76, R78, 20_memory.md R54) -/

/-- The fields of a packed control byte, bits 5:3 zero (R76). -/
theorem packControl_fields (f : BitVec 2) (cascade interrupt enable : Bool) :
    (packControl f cascade interrupt enable).extractLsb' 0 2 = f ∧
      (packControl f cascade interrupt enable).getLsbD 2 = cascade ∧
      (packControl f cascade interrupt enable).extractLsb' 3 3 = 0 ∧
      (packControl f cascade interrupt enable).getLsbD 6 = interrupt ∧
      (packControl f cascade interrupt enable).getLsbD 7 = enable := by
  revert f cascade interrupt enable; decide

/-- The divisor table as the lists of R78. -/
theorem divisorTable_eq_getD (f : BitVec 2) :
    shiftOf f = [0, 6, 8, 10].getD f.toNat 0 ∧ maskOf f = [0, 0x3F, 0xFF, 0x3FF].getD f.toNat 0 := by
  revert f; decide

/-- The two bytes of a value, put together (R54). -/
theorem highByte_lowByte_toNat (v : HalfWord) :
    (highByte v).toNat * 0x100 + (lowByte v).toNat = v.toNat := by
  conv_rhs => rw [← highByte_append_lowByte v, BitVec.toNat_append]
  rw [← Nat.shiftLeft_add_eq_or_of_lt (lowByte v).isLt, Nat.shiftLeft_eq]

/-! ### READ (R101 to R104) -/

/-- Settles O12: `lowByte` is `counter[7:0]`, and the form's word has offset 0. -/
theorem rdCntlAnswersLowByte : Obligations.RdCntlAnswersLowByte := fun s =>
  ⟨fun i => ⟨exec_rdCntl i s, decode_ofNat_read i 0⟩, fun _ h => exec_rdCntl_of_ge h s⟩

/-- Settles O13: `highByte` is `counter[15:8]`, and the form's word has offset 1. -/
theorem rdCnthAnswersHighByte : Obligations.RdCnthAnswersHighByte := fun s =>
  ⟨fun i => ⟨exec_rdCnth i s, decode_ofNat_read i 1⟩, fun _ h => exec_rdCnth_of_ge h s⟩

/-- Settles O15: the byte answered is the packed one. -/
theorem rdCtrlAnswersControlByte : Obligations.RdCtrlAnswersControlByte := fun s =>
  ⟨fun i => ⟨decode_ofNat_read i 2, controlByte (s.timer i), exec_rdCtrl i s, packControl_fields ..⟩,
    fun _ h => exec_rdCtrl_of_ge h s⟩

/-- Settles O16: the answer depends on no state, so a `wr.unused` before it makes no difference. -/
theorem rdUnusedAnswersZero : Obligations.RdUnusedAnswersZero := by
  refine fun s => ⟨fun i => ⟨exec_rdUnused i s, decode_ofNat_read i 3, ?_, fun v => ?_⟩,
    fun _ h => exec_rdUnused_of_ge h s⟩
  · exact fun _ h => Instr.ofRead_of_ge h i.val
  · exact ⟨s.quiet, exec_wrUnused i v s, exec_rdUnused i s.quiet⟩

/-! ### WRITE (R105 to R108) -/

/-- Settles O18: `mergeLow` keeps the high byte, and no field but `reload` is written. -/
theorem wrRldlReplacesLowByte : Obligations.WrRldlReplacesLowByte := fun s v =>
  ⟨fun i => ⟨exec_wrRldl i v s, decode_ofNat_write i 0 v⟩, fun _ h => exec_wrRldl_of_ge h v s⟩

/-- Settles O19: `mergeHigh` keeps the low byte, and no field but `reload` is written. -/
theorem wrRldhReplacesHighByte : Obligations.WrRldhReplacesHighByte := fun s v =>
  ⟨fun i => ⟨exec_wrRldh i v s, decode_ofNat_write i 1 v⟩, fun _ h => exec_wrRldh_of_ge h v s⟩

/-- Settles O20: the record written is that of `writeControl_eq`, its divisor fields read from the lists of
R78. -/
theorem wrCtrlDecodesControlByte : Obligations.WrCtrlDecodesControlByte := by
  refine fun s v => ⟨fun i => ⟨?_, decode_ofNat_write i 2 v⟩, fun _ h => exec_wrCtrl_of_ge h v s⟩
  obtain ⟨hshift, hmask⟩ := divisorTable_eq_getD (v.extractLsb' 0 2)
  rw [exec_wrCtrl, writeControl_eq, ← hshift, ← hmask]
  rfl

/-- Settles O21: only the outputs are emptied, and a `rd.unused` after it reads no state. -/
theorem wrUnusedChangesNothing : Obligations.WrUnusedChangesNothing := by
  refine fun s v => ⟨fun i => ⟨exec_wrUnused i v s, decode_ofNat_write i 3 v, ?_, ?_⟩,
    fun _ h => exec_wrUnused_of_ge h v s⟩
  · exact fun _ h => Instr.ofWrite_of_ge h i.val v
  · exact ⟨s.quiet, s.quiet.answer 0x00, exec_wrUnused i v s, exec_rdUnused i s.quiet,
      State.answer_busRdata ..⟩

/-! ### Two READs of one counter (R102) -/

/-- A well-formed operation completes in every state (60_exceptions.md R161). -/
theorem exec_of_wellFormed {i : Instr} (h : i.wellFormed = true) (s : State) :
    ∃ t : State, exec i s = .next t := by
  cases i with
  | rdCntl id => exact ⟨_, exec_rdCntl ⟨id, of_decide_eq_true h⟩ s⟩
  | rdCnth id => exact ⟨_, exec_rdCnth ⟨id, of_decide_eq_true h⟩ s⟩
  | rdCtrl id => exact ⟨_, exec_rdCtrl ⟨id, of_decide_eq_true h⟩ s⟩
  | rdUnused id => exact ⟨_, exec_rdUnused ⟨id, of_decide_eq_true h⟩ s⟩
  | wrRldl id v => exact ⟨_, exec_wrRldl ⟨id, of_decide_eq_true h⟩ v s⟩
  | wrRldh id v => exact ⟨_, exec_wrRldh ⟨id, of_decide_eq_true h⟩ v s⟩
  | wrCtrl id v => exact ⟨_, exec_wrCtrl ⟨id, of_decide_eq_true h⟩ v s⟩
  | wrUnused id v => exact ⟨_, exec_wrUnused ⟨id, of_decide_eq_true h⟩ v s⟩
  | adv n => exact ⟨_, exec_adv_of_nonneg (of_decide_eq_true h) s⟩
  | reset => exact ⟨_, exec_reset s⟩

/-- What is none of the four writers of a counter (10_state.md R22) keeps it. -/
theorem exec_keeps_counter {other : Instr} {s t : State} (h : exec other s = .next t) (i : Fin 4)
    (hctrl : ∀ v : Byte, other ≠ .wrCtrl i.val v) (hadv : ∀ n : Int, other ≠ .adv n)
    (hreset : other ≠ .reset) : (t.timer i).counter = (s.timer i).counter := by
  by_contra hne
  obtain ⟨v, hv, -⟩ | ⟨n, hn, -⟩ | ⟨n, hn, -⟩ | ⟨hr, -⟩ := counterChangesInFourCasesOnly.1 other s t i h hne
  · exact hctrl v hv
  · exact hadv n hn
  · exact hadv n hn
  · exact hreset hr

/-- Settles O14: the operation between the READs completes and keeps the counter, so the two bytes are those
of one value. -/
theorem twoReadsAnswerOneCounterValue : Obligations.TwoReadsAnswerOneCounterValue := by
  intro s i other hwf hctrl hadv hreset
  have hlow := exec_rdCntl i s
  obtain ⟨u, hother⟩ := exec_of_wellFormed hwf (s.answer (lowByte (s.timer i).counter))
  have hkept : (u.timer i).counter = (s.timer i).counter := exec_keeps_counter hother i hctrl hadv hreset
  have hhigh := exec_rdCnth i u
  rw [hkept] at hhigh
  exact ⟨_, u, _, _, _, hlow, hother, hhigh, State.answer_busRdata .., State.answer_busRdata ..,
    highByte_lowByte_toNat _⟩

end Sys2Proof.Machine
end

section
/-!
PROOFS of 41_advance_engine.md: one timer in one ADVANCE (R122 to R129), its requests (R129), batches and the
cycle-by-cycle reference (R131), and the two-phase form of the pass (R133).
-/

namespace Sys2Proof.Machine

/-! ### A disabled timer (R122) -/

/-- Settles O28: the visit of a disabled timer leaves its record and counts no wrap, and what happens to the
record after it is `consume`. -/
theorem advanceSkipsDisabledTimer : Obligations.AdvanceSkipsDisabledTimer := by
  refine ⟨fun s n i h => ?_, fun p n i h => visit_disabled h n⟩
  obtain ⟨w, hports, hw⟩ := afterAdvance_wraps n s
  have hvisit := visited_disabled h n (incomingFlag n s i)
  refine ⟨_, w, exec_adv_nat n s, hports, ?_, ?_, ?_⟩
  · rw [hw, hvisit]
  · rw [afterAdvance_timer, hvisit]
    rfl
  · simp [irqSet_bit, hvisit]

/-! ### A free-running timer (R124 to R129) -/

/-- The record a free-running step leaves, but for its flag, which a cascade successor may have consumed by
the end of the pass. -/
def freeStepped (t : Timer) (n : Nat) (flag : Bool) : Timer :=
  { t with counter := BitVec.ofNat 16 (freeCounter t n), overflow := flag, cycles := available t n &&& t.mask }

/-- The counter of R126 and R127, which needs no truncation (R130). -/
theorem freeStepped_counter_toNat (t : Timer) (n : Nat) (flag : Bool) :
    (freeStepped t n flag).counter.toNat = freeCounter t n :=
  Nat.mod_eq_of_lt (freeCounter_lt t n)

theorem afterAdvance_timer_free {s : State} {i : Fin 4} (henable : (s.timer i).enable = true)
    (hcascade : (s.timer i).cascade = false) (n : Nat) :
    (afterAdvance n s).timer i =
      freeStepped (s.timer i) n (freeOverflow (s.timer i) n && !successorCascades s i) := by
  rw [afterAdvance_timer, visited_free henable hcascade, freeRun_eq]
  rfl

theorem visited_wraps_free {t : Timer} (henable : t.enable = true) (hcascade : t.cascade = false) (n : Nat)
    (prev : Bool) : (visited n prev t).2 = freeWraps t n := by
  rw [visited_free henable hcascade, freeRun_eq]

/-- Settles O29: the record is that of `afterAdvance_timer_free`, read on either side of the span. -/
theorem advanceCountsFreeRunningTimer : Obligations.AdvanceCountsFreeRunningTimer := by
  intro s n i henable hcascade ticks span period
  refine ⟨_, exec_adv_nat n s, ?_⟩
  rw [afterAdvance_timer_free henable hcascade, freeStepped_counter_toNat]
  refine ⟨fun hbelow => ⟨if_pos hbelow, ?_⟩, fun hwrap => ⟨if_neg (Nat.not_lt.2 hwrap), ?_⟩, rfl⟩
  · have hflag : freeOverflow (s.timer i) n = false := by
      rw [← Bool.not_eq_true, freeOverflow_iff]
      exact Nat.not_le.2 hbelow
    rw [hflag]
    rfl
  · rw [(freeOverflow_iff _ _).2 hwrap]
    rfl

/-! ### Requests (R129, 60_exceptions.md R162 and R163) -/

/-- Timer `i`'s request bit after one ADVANCE. -/
theorem afterAdvance_IF_bit (n : Nat) (s : State) (i : Fin 4) :
    (afterAdvance n s).IF.getLsbD (Config.irqBase + i.val) =
      (s.IF.getLsbD (Config.irqBase + i.val) ||
        ((s.timer i).interrupt && decide (0 < (visited n (incomingFlag n s i) (s.timer i)).2))) := by
  rw [afterAdvance_IF, BitVec.getLsbD_or, ← afterAdvance_irqSet, irqSet_bit]

/-- Settles O38: `IF` and `irq_set` gain the same requests of the pass, one bit for each timer whose visit
counted a wrap. -/
theorem advanceRaisesRequestOfEachWrappedTimer : Obligations.AdvanceRaisesRequestOfEachWrappedTimer := by
  intro s n
  obtain ⟨w, hports, hw⟩ := afterAdvance_wraps n s
  refine ⟨_, w, exec_adv_nat n s, hports, ?_, fun k => ?_, fun i => ?_⟩
  · rw [afterAdvance_IF, afterAdvance_irqSet]
  · rw [afterAdvance_irqSet, passRequests_getLsbD]
    simp only [hw]
  · rw [afterAdvance_IF_bit, hw]

/-! ### The two-phase form (R133) -/

/-- One visit of the single pass is the two visits of the two phases, of which at least one does nothing. -/
theorem visit_eq_cascadeVisit_freeVisit (n : Nat) (p : Pass) (i : Fin 4) :
    visit n p i = cascadeVisit (freeVisit n p i) i := by
  rcases (p.timer i).cases_step with h | h | h
  · obtain ⟨hfree, hcascade⟩ := Timer.of_disabled h
    simp [visit_disabled h, freeVisit, cascadeVisit, hfree, hcascade]
  · have hstep : ((freeStep i n p).timer i).cascading = false := by
      rw [← Timer.not_cascading_of_free h]
      simp [freeStep, freeRun_eq, Timer.cascading]
    simp [visit_free h, freeVisit, cascadeVisit, h, hstep]
  · simp [visit_cascade h, freeVisit, cascadeVisit, h, Timer.not_free_of_cascading h]

/-- A free-running step writes no timer but its own. -/
theorem freeStep_timer_ne (n : Nat) (p : Pass) {j k : Fin 4} (h : j ≠ k) :
    (freeStep j n p).timer k = p.timer k := by
  simp [freeStep, h]

/-- The predecessor of a timer below `j` is not `j`. -/
theorem pred_ne_of_lt {i j : Fin 4} (hij : i < j) : (⟨i.val - 1, by omega⟩ : Fin 4) ≠ j := by
  simp only [ne_eq, Fin.ext_iff]
  omega

/-- A cascade step writes no timer above its own. -/
theorem cascadeStep_timer_of_lt (p : Pass) {i j : Fin 4} (hij : i < j) :
    (cascadeStep i p).timer j = p.timer j := by
  rw [cascadeStep_eq]
  split
  · simp [pred_ne_of_lt hij, hij.ne]
  · rfl

/-- A cascade step of a lower timer and a free-running step of a higher one write different timers and
counts, neither reads what the other writes, and requests are joined in any order. -/
theorem freeStep_cascadeStep_comm (n : Nat) (p : Pass) {i j : Fin 4} (hij : i < j) :
    freeStep j n (cascadeStep i p) = cascadeStep i (freeStep j n p) := by
  have hpred := pred_ne_of_lt hij
  have hflag : (freeStep j n p).prevFlag i = p.prevFlag i := by
    rw [Pass.prevFlag, Pass.prevFlag, freeStep_timer_ne n p hpred.symm]
  rw [freeStep, cascadeStep_timer_of_lt p hij, cascadeStep_eq, cascadeStep_eq, hflag,
    freeStep_timer_ne n p hij.ne', freeStep_timer_ne n p hpred.symm]
  by_cases hp : p.prevFlag i = true
  · rw [if_pos hp, if_pos hp]
    apply Pass.ext
    case timers =>
      refine timers_ext fun k => ?_
      change Pass.timer _ k = Pass.timer _ k
      by_cases hk : j = k
      · subst hk
        simp [freeStep, hpred, hij.ne]
      · simp [freeStep, hk, Pass.timer_setTimer]
    case IF =>
      simp only [freeStep, Pass.setWraps_IF, Pass.raiseIRQIf_IF, Pass.setTimer_IF]
      ac_rfl
    case irqSet =>
      simp only [freeStep, Pass.setWraps_irqSet, Pass.raiseIRQIf_irqSet, Pass.setTimer_irqSet]
      ac_rfl
    case wraps =>
      simp only [freeStep, Pass.setWraps_wraps, Pass.raiseIRQIf_wraps, Pass.setTimer_wraps]
      exact Vector.set_comm _ _ (by omega)
  · rw [if_neg hp, if_neg hp]
    rfl

/-- A cascade visit of a lower timer and a free-running visit of a higher one commute. -/
theorem freeVisit_cascadeVisit_comm (n : Nat) (p : Pass) {i j : Fin 4} (hij : i < j) :
    freeVisit n (cascadeVisit p i) j = cascadeVisit (freeVisit n p j) i := by
  have hlow : (freeVisit n p j).timer i = p.timer i := by
    rw [freeVisit_timer, if_neg hij.ne']
  by_cases hc : (p.timer i).cascading = true
  · have hhigh := cascadeStep_timer_of_lt p hij
    rw [cascadeVisit, if_pos hc, cascadeVisit, hlow, if_pos hc, freeVisit, hhigh, freeVisit]
    split
    · exact freeStep_cascadeStep_comm n p hij
    · rfl
  · rw [cascadeVisit, if_neg hc, cascadeVisit, hlow, if_neg hc]

/-- Settles O41: each visit is its two phases, and the free-running visit of each timer moves in front of the
cascade visits of the lower ones. -/
theorem twoPhasePassGivesSameResult : Obligations.TwoPhasePassGivesSameResult := by
  intro s n
  rw [exec_adv_nat, afterAdvance, passOf_eq, twoPhasePass_eq]
  simp (disch := decide) only [visit_eq_cascadeVisit_freeVisit, freeVisit_cascadeVisit_comm]
  rfl

/-! ### Batches and the cycle-by-cycle reference (R131) -/

theorem ticksOf_eq_div (t : Timer) (n : Nat) : ticksOf t n = (t.cycles + n) / 2 ^ t.shift :=
  Nat.shiftRight_eq_div_pow _ _

/-- Under the invariant the mask takes the remainder of the divisor (30_encoding.md R78). -/
theorem Timer.Inv.and_mask {i : Fin 4} {t : Timer} (h : Timer.Inv i t) (m : Nat) :
    m &&& t.mask = m % 2 ^ t.shift := by
  obtain ⟨-, hshift, hmask, -⟩ := h
  rw [hmask, maskOf_eq, ← hshift, Nat.and_two_pow_sub_one_eq_mod]

theorem Timer.Inv.cycles_lt {i : Fin 4} {t : Timer} (h : Timer.Inv i t) (hcycles : t.cycles ≤ t.mask) :
    t.cycles < 2 ^ t.shift := by
  obtain ⟨-, hshift, hmask, -⟩ := h
  have hpos := Nat.two_pow_pos t.shift
  rw [hmask, maskOf_eq, ← hshift] at hcycles
  omega

/-- Settles O43: `n` base cycles of the reference are `ticksOf` ticks, and the free-running step is that many
ticks. -/
theorem advanceMatchesCycleByCycleReference : Obligations.AdvanceMatchesCycleByCycleReference := by
  rintro s n i ⟨htimers, -⟩ henable hcascade hcycles
  obtain ⟨w, hports, hw⟩ := afterAdvance_wraps n s
  refine ⟨_, w, exec_adv_nat n s, hports, ?_⟩
  rw [hw, visited_wraps_free henable hcascade, afterAdvance_timer_free henable hcascade,
    refRun_eq _ _ _ _ ((htimers i).cycles_lt hcycles), ← ticksOf_eq_div, freeRun_tickRun,
    ← (htimers i).and_mask]
  rfl

/-- Ticks count the same wraps from whatever number of wraps they start. -/
theorem tickRun_add_wraps (reload : HalfWord) (m w : Nat) (r : RefTimer) :
    tickRun reload m { r with wraps := w + r.wraps } =
      { tickRun reload m r with wraps := w + (tickRun reload m r).wraps } := by
  induction m with
  | zero => rfl
  | succ m ih =>
    rw [tickRun, ih, tickRun, refTick, refTick]
    split <;> rfl

/-- The free-running step as ticks, from any number of wraps. -/
theorem freeRun_tickRun_from (t : Timer) (n p w : Nat) :
    tickRun t.reload (ticksOf t n) ⟨p, t.counter, w⟩ =
      ⟨p, BitVec.ofNat 16 (freeCounter t n), w + freeWraps t n⟩ := by
  have h := tickRun_add_wraps t.reload (ticksOf t n) w ⟨p, t.counter, 0⟩
  rwa [freeRun_tickRun] at h

/-- The ticks of two batches add up to those of one. -/
theorem ticksOf_add {i : Fin 4} {t : Timer} (h : Timer.Inv i t) (a b : Nat) (flag : Bool) :
    ticksOf t (a + b) = ticksOf t a + ticksOf (freeStepped t a flag) b := by
  simp only [ticksOf_eq_div, freeStepped, available, h.and_mask]
  exact ticks_split _ _ _ _ (Nat.two_pow_pos _)

/-- Two batches leave the counter of one and count its wraps: both are the same ticks, one at a time. -/
theorem freeCounter_freeWraps_add {i : Fin 4} {t : Timer} (h : Timer.Inv i t) (a b : Nat) (flag : Bool) :
    BitVec.ofNat 16 (freeCounter (freeStepped t a flag) b) = BitVec.ofNat 16 (freeCounter t (a + b)) ∧
      freeWraps t a + freeWraps (freeStepped t a flag) b = freeWraps t (a + b) := by
  have hone := freeRun_tickRun t (a + b) 0
  rw [ticksOf_add h a b flag, tickRun_add, freeRun_tickRun] at hone
  have htwo := freeRun_tickRun_from (freeStepped t a flag) b 0 (freeWraps t a)
  exact (RefTimer.mk.inj (htwo.symm.trans hone)).2

/-- Two batches leave the leftover of one. -/
theorem leftover_add {i : Fin 4} {t : Timer} (h : Timer.Inv i t) (a b : Nat) (flag : Bool) :
    available (freeStepped t a flag) b &&& t.mask = available t (a + b) &&& t.mask := by
  simp only [available, freeStepped, h.and_mask]
  exact (rem_split _ _ _ _).symm

/-- Settles O42: the second ADVANCE finds the record the first one left, and the two request the interrupt
exactly when one of them wraps. -/
theorem freeRunningIsBatchIndependent : Obligations.FreeRunningIsBatchIndependent := by
  rintro s a b i ⟨htimers, -⟩ henable hcascade
  have hfirst := afterAdvance_timer_free henable hcascade a
  have henable' : ((afterAdvance a s).timer i).enable = true := by rw [hfirst]; exact henable
  have hcascade' : ((afterAdvance a s).timer i).cascade = false := by rw [hfirst]; exact hcascade
  have hinterrupt : ((afterAdvance a s).timer i).interrupt = (s.timer i).interrupt := by rw [hfirst]; rfl
  obtain ⟨wa, hportsa, hwa⟩ := afterAdvance_wraps a s
  obtain ⟨wb, hportsb, hwb⟩ := afterAdvance_wraps b (afterAdvance a s)
  obtain ⟨wab, hportsab, hwab⟩ := afterAdvance_wraps (a + b) s
  obtain ⟨hcounter, hwraps⟩ := freeCounter_freeWraps_add (htimers i) a b
    (freeOverflow (s.timer i) a && !successorCascades s i)
  have hsum : wa[i.val] + wb[i.val] = wab[i.val] := by
    rw [hwa, hwb, hwab, visited_wraps_free henable hcascade, visited_wraps_free henable' hcascade',
      visited_wraps_free henable hcascade, hfirst, hwraps]
  refine ⟨_, _, _, wa, wb, wab, exec_adv_nat a s, exec_adv_nat b _, exec_adv_nat (a + b) s, hportsa, hportsb,
    hportsab, ?_, ?_, hsum, ?_⟩
  · rw [afterAdvance_timer_free henable' hcascade', hfirst, afterAdvance_timer_free henable hcascade]
    exact hcounter
  · rw [afterAdvance_timer_free henable' hcascade', hfirst, afterAdvance_timer_free henable hcascade]
    exact leftover_add (htimers i) a b _
  · have hwrapped : decide (0 < wab[i.val]) = (decide (0 < wa[i.val]) || decide (0 < wb[i.val])) := by
      rw [← hsum, ← Bool.decide_or]
      exact decide_eq_decide.2 Nat.add_pos_iff_pos_or_pos
    rw [afterAdvance_IF_bit, ← hwb, afterAdvance_IF_bit, ← hwa, afterAdvance_IF_bit, ← hwab, hinterrupt,
      hwrapped, Bool.and_or_distrib_left, Bool.or_assoc]

end Sys2Proof.Machine
end

section
/-!
PROOFS of 42_cascade.md: the cascade step of one timer (R141 to R143), its reach within one ADVANCE (R144,
R145), stale flags (R146), and what a cascade step does not read (R147).
-/

namespace Sys2Proof.Machine

/-! ### A visit that does nothing (R141, R142) -/

/-- A timer whose own visit does nothing: no wrap and no request, and of its record only the flag may change,
by its successor. -/
theorem afterAdvance_of_idle_visit {n : Nat} {s : State} {i : Fin 4}
    (h : visited n (incomingFlag n s i) (s.timer i) = (s.timer i, 0)) :
    ∃ w : Vector Nat 4, (afterAdvance n s).ports.wraps = some w ∧ w[i.val] = 0 ∧
      (afterAdvance n s).timer i = consume (successorCascades s i) (s.timer i) ∧
      (afterAdvance n s).ports.irqSet.getLsbD (Config.irqBase + i.val) = false := by
  obtain ⟨w, hports, hw⟩ := afterAdvance_wraps n s
  refine ⟨w, hports, ?_, ?_, ?_⟩
  · rw [hw, h]
  · rw [afterAdvance_timer, h]
  · simp [irqSet_bit, h]

/-- Settles O33: timer 0 finds no flag, so as a cascade timer its visit does nothing. -/
theorem cascadeOnTimerZeroStandsStill : Obligations.CascadeOnTimerZeroStandsStill := by
  intro s n henable hcascade
  have hidle : visited n (incomingFlag n s 0) (s.timer 0) = (s.timer 0, 0) :=
    visited_cascade_false henable hcascade n
  obtain ⟨w, hports, hwraps, htimer, hirq⟩ := afterAdvance_of_idle_visit hidle
  exact ⟨_, w, exec_adv_nat n s, hports, hwraps, htimer, hirq⟩

/-! ### Neighbours in one ADVANCE (R142, R143) -/

/-- A timer above 0 finds the flag of the timer just below it. -/
theorem prevFlag_succ {j i : Fin 4} (h : j.val + 1 = i.val) (p : Pass) :
    p.prevFlag i = (p.timer j).overflow := by
  have hpred : (⟨i.val - 1, by omega⟩ : Fin 4) = j := Fin.ext (by simp only; omega)
  rw [Pass.prevFlag, if_neg (by omega), hpred]

/-- Below an enabled cascade timer every flag ends false: it was false, or it is consumed. -/
theorem afterAdvance_overflow_of_successor_cascading {j i : Fin 4} (h : j.val + 1 = i.val) {s : State}
    (hi : (s.timer i).cascading = true) (n : Nat) : ((afterAdvance n s).timer j).overflow = false := by
  rw [afterAdvance_overflow, successorCascades_eq h, hi, Bool.not_true, Bool.and_false]

/-- Settles O31: with the predecessor's flag false the cascade step is the identity on the pass. -/
theorem cascadeWaitsForPredecessor : Obligations.CascadeWaitsForPredecessor := by
  refine ⟨fun s n j i hji henable hcascade hflag => ?_, fun p n j i hji henable hcascade hflag => ?_⟩
  · have hidle : visited n (incomingFlag n s i) (s.timer i) = (s.timer i, 0) := by
      rw [hflag, visited_cascade_false henable hcascade]
    obtain ⟨w, hports, hwraps, htimer, hirq⟩ := afterAdvance_of_idle_visit hidle
    have hpred := afterAdvance_overflow_of_successor_cascading hji
      (Timer.cascading_iff.2 ⟨henable, hcascade⟩) n
    exact ⟨_, w, exec_adv_nat n s, hports, hwraps, htimer, hpred, hirq⟩
  · rw [visit_cascade (Timer.cascading_iff.2 ⟨henable, hcascade⟩), cascadeStep_eq, prevFlag_succ hji, hflag]
    rfl

/-! ### One tick at most (R143 to R145) -/

theorem cascadeOverflow_iff {t : Timer} : cascadeOverflow t = true ↔ t.counter = 0xFFFF := beq_iff_eq

/-- The counter of R143. -/
theorem cascadeTick_counter (t : Timer) :
    (cascadeTick t).counter = if t.counter = 0xFFFF then t.reload else t.counter + 1 := by
  simp [cascadeTick]

theorem afterAdvance_counter_cascade_false {s : State} {n : Nat} {i : Fin 4}
    (henable : (s.timer i).enable = true) (hcascade : (s.timer i).cascade = true)
    (hflag : incomingFlag n s i = false) :
    ((afterAdvance n s).timer i).counter = (s.timer i).counter := by
  rw [afterAdvance_timer, consume_counter, hflag, visited_cascade_false henable hcascade]

theorem afterAdvance_counter_cascade_true {s : State} {n : Nat} {i : Fin 4}
    (henable : (s.timer i).enable = true) (hcascade : (s.timer i).cascade = true)
    (hflag : incomingFlag n s i = true) :
    ((afterAdvance n s).timer i).counter =
      if (s.timer i).counter = 0xFFFF then (s.timer i).reload else (s.timer i).counter + 1 := by
  rw [afterAdvance_timer, consume_counter, hflag, visited_cascade_true henable hcascade, cascadeTick_counter]

/-- Settles O44, by the flag the timer finds and, where it is true, by whether the counter is at 0xFFFF. -/
theorem cascadeGainsAtMostOneTick : Obligations.CascadeGainsAtMostOneTick := by
  intro s n i henable hcascade
  obtain ⟨w, hports, hw⟩ := afterAdvance_wraps n s
  refine ⟨_, w, exec_adv_nat n s, hports, ?_⟩
  rw [hw]
  cases hflag : incomingFlag n s i with
  | false =>
    rw [afterAdvance_counter_cascade_false henable hcascade hflag, visited_cascade_false henable hcascade]
    exact .inl ⟨rfl, rfl⟩
  | true =>
    rw [afterAdvance_counter_cascade_true henable hcascade hflag, visited_cascade_true henable hcascade]
    by_cases hmax : (s.timer i).counter = 0xFFFF
    · exact .inr (.inr ⟨hmax, if_pos hmax, if_pos (cascadeOverflow_iff.2 hmax)⟩)
    · exact .inr (.inl ⟨hmax, if_neg hmax, if_neg (mt cascadeOverflow_iff.1 hmax)⟩)

/-- Settles O45: a timer that wraps leaves its flag true, and that is the flag its successor finds. -/
theorem wrapReachesCascadeSuccessorInSameAdvance :
    Obligations.WrapReachesCascadeSuccessorInSameAdvance := by
  intro s n j i hji henable hcascade
  obtain ⟨w, hports, hw⟩ := afterAdvance_wraps n s
  refine ⟨_, w, exec_adv_nat n s, hports, fun hwrap => ⟨?_, ?_⟩⟩
  · exact afterAdvance_overflow_of_successor_cascading hji (Timer.cascading_iff.2 ⟨henable, hcascade⟩) n
  · have hflag : incomingFlag n s i = true := by
      rw [incomingFlag_succ hji]
      rw [hw] at hwrap
      exact flagAfterVisit_of_wraps n _ _ hwrap
    exact afterAdvance_counter_cascade_true henable hcascade hflag

/-! ### A stale flag (R146) -/

@[simp] theorem afterAdvance_enable (n : Nat) (s : State) (i : Fin 4) :
    ((afterAdvance n s).timer i).enable = (s.timer i).enable := by
  rw [afterAdvance_timer, visited_frame]
  rfl

@[simp] theorem afterAdvance_cascade (n : Nat) (s : State) (i : Fin 4) :
    ((afterAdvance n s).timer i).cascade = (s.timer i).cascade := by
  rw [afterAdvance_timer, visited_frame]
  rfl

/-- Above a disabled timer, the flag found is the one that timer kept, stale or not. -/
theorem incomingFlag_of_disabled {j i : Fin 4} (h : j.val + 1 = i.val) {s : State}
    (hj : (s.timer j).enable = false) (n : Nat) : incomingFlag n s i = (s.timer j).overflow := by
  rw [incomingFlag_succ h, flagAfterVisit, hj]
  rfl

/-- Settles O46: the first ADVANCE finds the stale flag and consumes it, so the second finds it false. -/
theorem staleFlagCountsOnce : Obligations.StaleFlagCountsOnce := by
  intro s m n j i hji hdisabled hstale henable hcascade hbelow
  have hfound : incomingFlag m s i = true := by rw [incomingFlag_of_disabled hji hdisabled, hstale]
  have hconsumed := afterAdvance_overflow_of_successor_cascading hji
    (Timer.cascading_iff.2 ⟨henable, hcascade⟩) m
  have hdisabled' : ((afterAdvance m s).timer j).enable = false := by rw [afterAdvance_enable, hdisabled]
  have henable' : ((afterAdvance m s).timer i).enable = true := by rw [afterAdvance_enable, henable]
  have hcascade' : ((afterAdvance m s).timer i).cascade = true := by rw [afterAdvance_cascade, hcascade]
  have hgone : incomingFlag n (afterAdvance m s) i = false := by
    rw [incomingFlag_of_disabled hji hdisabled', hconsumed]
  refine ⟨_, _, exec_adv_nat m s, exec_adv_nat n _, ?_, hconsumed, ?_, ?_⟩
  · rw [afterAdvance_counter_cascade_true henable hcascade hfound, if_neg hbelow]
  · exact afterAdvance_counter_cascade_false henable' hcascade' hgone
  · exact afterAdvance_overflow_of_successor_cascading hji (Timer.cascading_iff.2 ⟨henable', hcascade'⟩) n

/-! ### What a cascade step does not read (R147) -/

/-- A record with other divisor state and another leftover. -/
def Timer.withDivisor (t : Timer) (f : BitVec 2) (sh mk cy : Nat) : Timer :=
  { t with frequency := f, shift := sh, mask := mk, cycles := cy }

theorem consume_withDivisor (c : Bool) (t : Timer) (f : BitVec 2) (sh mk cy : Nat) :
    consume c (t.withDivisor f sh mk cy) = (consume c t).withDivisor f sh mk cy := rfl

/-- The visit of a cascade timer keeps divisor state and leftover, and its other results do not depend on
them. -/
theorem visited_withDivisor {t : Timer} (h : t.cascading = true) (n : Nat) (prev : Bool) (f : BitVec 2)
    (sh mk cy : Nat) :
    visited n prev (t.withDivisor f sh mk cy) =
      ((visited n prev t).1.withDivisor f sh mk cy, (visited n prev t).2) := by
  obtain ⟨henable, hcascade⟩ := Timer.cascading_iff.1 h
  have henable' : (t.withDivisor f sh mk cy).enable = true := henable
  have hcascade' : (t.withDivisor f sh mk cy).cascade = true := hcascade
  cases prev with
  | false => rw [visited_cascade_false henable' hcascade', visited_cascade_false henable hcascade]
  | true =>
    rw [visited_cascade_true henable' hcascade', visited_cascade_true henable hcascade]
    rfl

theorem flagAfterVisit_withDivisor {t : Timer} (h : t.cascading = true) (n : Nat) (prev : Bool)
    (f : BitVec 2) (sh mk cy : Nat) :
    flagAfterVisit n prev (t.withDivisor f sh mk cy) = flagAfterVisit n prev t := by
  rw [← visited_overflow, ← visited_overflow, visited_withDivisor h]
  rfl

theorem visitRequest_withDivisor {t : Timer} (h : t.cascading = true) (n : Nat) (prev : Bool) (i : Fin 4)
    (f : BitVec 2) (sh mk cy : Nat) :
    visitRequest n prev (t.withDivisor f sh mk cy) i = visitRequest n prev t i := by
  rw [visitRequest, visited_withDivisor h]
  rfl

/-- What depends only on what the old and the new record of `T[i]` share is the same for every timer after
the replacement. -/
theorem State.apply_timer_setTimer {α : Type} (g : Timer → α) {s : State} {i : Fin 4} {t : Timer}
    (h : g t = g (s.timer i)) (k : Fin 4) : g ((s.setTimer i t).timer k) = g (s.timer k) := by
  rw [State.timer_setTimer]
  split
  · subst k
    exact h
  · rfl

/-- The flags found in a pass follow from what each visit makes of each flag. -/
theorem incomingFlag_congr {n : Nat} {s t : State}
    (h : ∀ k, ∀ prev : Bool, flagAfterVisit n prev (t.timer k) = flagAfterVisit n prev (s.timer k)) (i : Fin 4) :
    incomingFlag n t i = incomingFlag n s i := by
  simp only [incomingFlag, h]

theorem successorCascades_congr {s t : State} (h : ∀ k, (t.timer k).cascading = (s.timer k).cascading)
    (i : Fin 4) : successorCascades t i = successorCascades s i := by
  simp only [successorCascades, h]

section DivisorReplaced

variable (s : State) (n : Nat) (i : Fin 4) (f : BitVec 2) (sh mk cy : Nat)

/-- The state with divisor state and leftover of `T[i]` replaced. -/
def State.withDivisor : State := s.setTimer i ((s.timer i).withDivisor f sh mk cy)

theorem successorCascades_withDivisor (k : Fin 4) :
    successorCascades (s.withDivisor i f sh mk cy) k = successorCascades s k := by
  have hkept : ((s.timer i).withDivisor f sh mk cy).cascading = (s.timer i).cascading := rfl
  exact successorCascades_congr (State.apply_timer_setTimer Timer.cascading hkept) k

variable {s i} (hi : (s.timer i).cascading = true)
include hi

theorem incomingFlag_withDivisor (k : Fin 4) :
    incomingFlag n (s.withDivisor i f sh mk cy) k = incomingFlag n s k :=
  incomingFlag_congr (fun k prev => State.apply_timer_setTimer (flagAfterVisit n prev)
    (flagAfterVisit_withDivisor hi n prev f sh mk cy) k) k

theorem passRequests_withDivisor :
    passRequests n (s.withDivisor i f sh mk cy) = passRequests n s := by
  have hrequest (prev : Bool) (k j : Fin 4) :
      visitRequest n prev ((s.withDivisor i f sh mk cy).timer k) j = visitRequest n prev (s.timer k) j :=
    State.apply_timer_setTimer (visitRequest n prev · j) (visitRequest_withDivisor hi n prev j f sh mk cy) k
  simp only [passRequests, incomingFlag_withDivisor n f sh mk cy hi, hrequest]

theorem passWraps_withDivisor :
    (passOf n (startPass (s.withDivisor i f sh mk cy))).wraps = (passOf n (startPass s)).wraps := by
  have hwraps (prev : Bool) (k : Fin 4) :
      (visited n prev ((s.withDivisor i f sh mk cy).timer k)).2 = (visited n prev (s.timer k)).2 :=
    State.apply_timer_setTimer (fun t => (visited n prev t).2)
      (by rw [visited_withDivisor hi]) k
  refine Vector.ext fun k hk => ?_
  have h := pass_wraps n (s.withDivisor i f sh mk cy) ⟨k, hk⟩
  rw [incomingFlag_withDivisor n f sh mk cy hi, hwraps] at h
  exact h.trans (pass_wraps n s ⟨k, hk⟩).symm

theorem afterAdvance_timer_withDivisor (k : Fin 4) :
    (afterAdvance n (s.withDivisor i f sh mk cy)).timer k =
      ((afterAdvance n s).withDivisor i f sh mk cy).timer k := by
  rw [afterAdvance_timer, successorCascades_withDivisor, incomingFlag_withDivisor n f sh mk cy hi,
    State.withDivisor, State.withDivisor, State.timer_setTimer, State.timer_setTimer]
  by_cases hk : i = k
  · subst k
    rw [if_pos rfl, if_pos rfl, visited_withDivisor hi, consume_withDivisor, ← afterAdvance_timer]
  · rw [if_neg hk, if_neg hk, ← afterAdvance_timer]

/-- ADVANCE passes the divisor state of a cascade timer through. -/
theorem afterAdvance_withDivisor :
    afterAdvance n (s.withDivisor i f sh mk cy) = (afterAdvance n s).withDivisor i f sh mk cy := by
  apply State.ext
  case timers => exact timers_ext (afterAdvance_timer_withDivisor n f sh mk cy hi)
  case IF =>
    calc (afterAdvance n (s.withDivisor i f sh mk cy)).IF
        = s.IF ||| passRequests n (s.withDivisor i f sh mk cy) := afterAdvance_IF n _
      _ = (afterAdvance n s).IF := by rw [passRequests_withDivisor n f sh mk cy hi, ← afterAdvance_IF]
  case ports =>
    apply Ports.ext
    case busRdata => rfl
    case irqSet =>
      calc (afterAdvance n (s.withDivisor i f sh mk cy)).ports.irqSet
          = passRequests n s := by rw [afterAdvance_irqSet, passRequests_withDivisor n f sh mk cy hi]
        _ = (afterAdvance n s).ports.irqSet := (afterAdvance_irqSet n s).symm
    case wraps => exact congrArg some (passWraps_withDivisor n f sh mk cy hi)
  case inputs => rfl

end DivisorReplaced

/-- Settles O47: both states of the statement are `State.withDivisor`. -/
theorem cascadeIgnoresDivisorState : Obligations.CascadeIgnoresDivisorState := by
  intro s n i f sh mk cy henable hcascade
  refine ⟨_, exec_adv_nat n s, ?_⟩
  change exec (.adv n) (s.withDivisor i f sh mk cy) = .next ((afterAdvance n s).withDivisor i f sh mk cy)
  rw [exec_adv_nat, afterAdvance_withDivisor n f sh mk cy (Timer.cascading_iff.2 ⟨henable, hcascade⟩)]

end Sys2Proof.Machine
end

section
/-!
PROOFS of 60_exceptions.md: the register window after RESET (R169).
-/

namespace Sys2Proof.Machine

/-- At the reset record every register reads as 0: the counter's two bytes, the control byte, and the unused
offsets (10_state.md R22, R26; 40_bus_interface.md R104). -/
@[simp] theorem readByte_initial (i : Fin 4) (offset : Nat) : readByte (Timer.initial i) offset = 0x00 := by
  match offset with
  | 0 => exact (by decide : lowByte 0 = 0x00)
  | 1 => exact (by decide : highByte 0 = 0x00)
  | 2 => exact (by decide : packControl 0 false false false = 0x00)
  | _ + 3 => rfl

/-- Settles O51: RESET leaves every timer at its reset record, and a READ answers from that record alone. -/
theorem windowReadsZeroAfterReset : Obligations.WindowReadsZeroAfterReset := by
  refine fun s i offset => ⟨_, _, exec_reset s, exec_ofRead i offset _, ?_⟩
  rw [State.answer_busRdata, timer_afterReset, readByte_initial]

end Sys2Proof.Machine
end

section
/-!
PROOFS of 70_reset_and_hazards.md: IF through every operation (R181), and the hazards between WRITEs and
ADVANCE (R185 to R188, R190).
-/

namespace Sys2Proof.Machine

/-! ### Several operations in a row -/

theorem execAll_cons {i : Instr} {s t : State} (h : exec i s = .next t) (rest : List Instr) :
    execAll (i :: rest) s = execAll rest t := by
  rw [execAll, h]

/-- Operations that begin with a control WRITE go on with that timer decoded from the byte, on the enable edge
loaded from `reload` (40_bus_interface.md R107). -/
theorem execAll_wrCtrl (s : State) (i : Fin 4) (ctrl : Byte) (rest : List Instr) :
    ∃ u : State, execAll (.wrCtrl i.val ctrl :: rest) s = execAll rest u ∧
      u.timer i = writeControl (s.timer i) ctrl :=
  ⟨_, execAll_cons (exec_wrCtrl i ctrl s) rest, State.timer_setTimer_self ..⟩

/-- Both bytes of `wr.rld` before other operations: these find the new reload value and the rest of the
record as it was (30_encoding.md R83). -/
theorem execAll_wrRld (s : State) (i : Fin 4) (v : HalfWord) (rest : List Instr) :
    ∃ u : State, execAll ((Pseudo.wrRld i.val v).expand ++ rest) s = execAll rest u ∧
      u.timer i = { s.timer i with reload := v } := by
  refine ⟨_, (execAll_cons (exec_wrRldl i (lowByte v) s) _).trans
    (execAll_cons (exec_wrRldh i (highByte v) _) rest), ?_⟩
  rw [State.timer_quiet, State.timer_setTimer_self, State.timer_quiet, State.timer_setTimer_self,
    mergeHigh_mergeLow, highByte_append_lowByte]

/-- The counter after an enable edge (R107). -/
theorem writeControl_counter_edge {t : Timer} {v : Byte} (hdisabled : t.enable = false)
    (hset : v.getLsbD 7 = true) : (writeControl t v).counter = t.reload := by
  rw [writeControl_counter, if_pos ⟨hdisabled, hset⟩]

/-- A control WRITE to a running timer makes no enable edge (R107). -/
theorem writeControl_counter_running {t : Timer} (henable : t.enable = true) (v : Byte) :
    (writeControl t v).counter = t.counter := by
  rw [writeControl_counter, if_neg (by simp [henable])]

/-- Settles O25: the first byte disables the timer, so the second makes an enable edge; without the first it
makes none. -/
theorem disableThenEnableReloads : Obligations.DisableThenEnableReloads := by
  intro s i off on hclear hset
  constructor
  · obtain ⟨u, hu, hoff⟩ := execAll_wrCtrl s i off [.wrCtrl i.val on]
    obtain ⟨t, ht, hon⟩ := execAll_wrCtrl u i on []
    have hdisabled : (u.timer i).enable = false := by rw [hoff, writeControl_enable, hclear]
    refine ⟨t, hu.trans ht, ?_, ?_, ?_, ?_⟩
    · rw [hon, writeControl_counter_edge hdisabled hset, hoff, writeControl_reload]
    · rw [hon, hoff, writeControl_cycles, writeControl_cycles]
    · rw [hon, hoff, writeControl_overflow, writeControl_overflow]
    · rw [hon, writeControl_enable, hset]
  · intro henable
    obtain ⟨t, ht, hon⟩ := execAll_wrCtrl s i on []
    exact ⟨t, ht, by rw [hon, writeControl_counter_running henable]⟩

/-- Settles O26: the control byte loads the reload value it finds, the new one or the old one. -/
theorem reloadBeforeControlStartsFromNewReload : Obligations.ReloadBeforeControlStartsFromNewReload := by
  intro s i v ctrl hdisabled hset
  constructor
  · obtain ⟨u, hu, hreload⟩ := execAll_wrRld s i v [.wrCtrl i.val ctrl]
    obtain ⟨t, ht, hctrl⟩ := execAll_wrCtrl u i ctrl []
    have hdisabled' : (u.timer i).enable = false := by rw [hreload]; exact hdisabled
    refine ⟨t, hu.trans ht, ?_, ?_⟩
    · rw [hctrl, writeControl_counter_edge hdisabled' hset, hreload]
    · rw [hctrl, writeControl_reload, hreload]
  · obtain ⟨u, hu, hctrl⟩ := execAll_wrCtrl s i ctrl (Pseudo.wrRld i.val v).expand
    obtain ⟨t, ht, hreload⟩ := execAll_wrRld u i v []
    refine ⟨t, hu.trans ht, ?_, ?_⟩
    · rw [hreload, hctrl, writeControl_counter_edge hdisabled hset]
    · rw [hreload]

/-! ### The counter of a free-running timer after one ADVANCE (41_advance_engine.md R126, R127) -/

section FreeRunning

variable {s : State} {i : Fin 4} (henable : (s.timer i).enable = true) (hcascade : (s.timer i).cascade = false)
include henable hcascade

/-- Ticks that do not reach the next wrap are added to the counter, and the flag ends false (R126). -/
theorem afterAdvance_free_of_lt {n : Nat} (hbelow : ticksOf (s.timer i) n < spanToWrap (s.timer i)) :
    ((afterAdvance n s).timer i).counter.toNat = (s.timer i).counter.toNat + ticksOf (s.timer i) n ∧
      ((afterAdvance n s).timer i).overflow = false := by
  have hflag : freeOverflow (s.timer i) n = false := by
    rw [← Bool.not_eq_true, freeOverflow_iff]
    exact Nat.not_le.2 hbelow
  rw [afterAdvance_timer_free henable hcascade, freeStepped_counter_toNat, freeCounter, if_pos hbelow, hflag]
  exact ⟨rfl, rfl⟩

/-- At the next wrap the counter restarts from `reload` and goes on with the ticks that remain (R127). -/
theorem afterAdvance_counter_free_of_wrap {n : Nat}
    (hwrap : spanToWrap (s.timer i) ≤ ticksOf (s.timer i) n) :
    ((afterAdvance n s).timer i).counter.toNat = (s.timer i).reload.toNat +
      (ticksOf (s.timer i) n - spanToWrap (s.timer i)) % wrapPeriod (s.timer i) := by
  rw [afterAdvance_timer_free henable hcascade, freeStepped_counter_toNat, freeCounter,
    if_neg (Nat.not_lt.2 hwrap)]

end FreeRunning

/-- With fewer base cycles than the divisor, no tick is counted (R125). -/
theorem ticksOf_eq_zero {t : Timer} {n : Nat} (h : t.cycles + n < 2 ^ t.shift) : ticksOf t n = 0 := by
  rw [ticksOf_eq_div, Nat.div_eq_of_lt h]

/-- From one divisor of base cycles to below two, one tick is counted (R125). -/
theorem ticksOf_eq_one {t : Timer} {n : Nat} (hone : 2 ^ t.shift ≤ t.cycles + n)
    (htwo : t.cycles + n < 2 * 2 ^ t.shift) : ticksOf t n = 1 := by
  rw [ticksOf_eq_div]
  exact Nat.div_eq_of_lt_le (by rwa [Nat.one_mul]) htwo

/-! ### A reload WRITE (R185) -/

/-- The reload WRITE of either byte replaces `reload` by the merged value and nothing else of the record
(40_bus_interface.md R105, R106). -/
theorem exec_reloadWrite (s : State) (i : Fin 4) {v : Byte} {write : Instr} {new : HalfWord}
    (h : write = .wrRldl i.val v ∧ new = (s.timer i).reload.extractLsb' 8 8 ++ v ∨
      write = .wrRldh i.val v ∧ new = v ++ (s.timer i).reload.extractLsb' 0 8) :
    ∃ u : State, exec write s = .next u ∧ u.timer i = { s.timer i with reload := new } := by
  obtain ⟨rfl, rfl⟩ | ⟨rfl, rfl⟩ := h
  · exact ⟨_, exec_wrRldl i v s, State.timer_setTimer_self ..⟩
  · exact ⟨_, exec_wrRldh i v s, State.timer_setTimer_self ..⟩

/-- Settles O27: the WRITE leaves the record but for `reload`, which only the enable edge and the wrap read. -/
theorem reloadWriteIsDeferred : Obligations.ReloadWriteIsDeferred := by
  intro s i v write new hwrite
  obtain ⟨u, hu, hreload⟩ := exec_reloadWrite s i hwrite
  refine ⟨⟨u, hu, by rw [hreload]⟩, fun ctrl hdisabled hset => ?_, fun n henable hcascade => ?_⟩
  · obtain ⟨t, ht, hctrl⟩ := execAll_wrCtrl u i ctrl []
    have hdisabled' : (u.timer i).enable = false := by rw [hreload]; exact hdisabled
    exact ⟨t, (execAll_cons hu _).trans ht, by rw [hctrl, writeControl_counter_edge hdisabled' hset, hreload]⟩
  · have henable' : (u.timer i).enable = true := by rw [hreload]; exact henable
    have hcascade' : (u.timer i).cascade = false := by rw [hreload]; exact hcascade
    have hbelow := fun h => (afterAdvance_free_of_lt henable' hcascade' (n := n) h).1
    have hwrap := afterAdvance_counter_free_of_wrap henable' hcascade' (n := n)
    rw [hreload] at hbelow hwrap
    exact ⟨_, (execAll_cons hu _).trans (execAll_cons (exec_adv_nat n u) []), hbelow, hwrap⟩

/-! ### Leftover cycles (R187, R188) -/

/-- Settles O36: the ticks are those of the leftover alone, none while it is under the divisor. -/
theorem advanceZeroCountsOnlyLeftover : Obligations.AdvanceZeroCountsOnlyLeftover := by
  intro s i henable hcascade
  refine ⟨_, exec_adv_nat 0 s, fun hunder => ?_, fun hbelow => afterAdvance_free_of_lt henable hcascade hbelow⟩
  have hticks : ticksOf (s.timer i) 0 = 0 := ticksOf_eq_zero hunder
  have hbelow : ticksOf (s.timer i) 0 < spanToWrap (s.timer i) := by
    rw [hticks]
    exact spanToWrap_pos _
  obtain ⟨hcounter, hflag⟩ := afterAdvance_free_of_lt henable hcascade hbelow
  rw [hticks, Nat.add_zero] at hcounter
  exact ⟨BitVec.eq_of_toNat_eq hcounter, hflag⟩

/-- The divisors of the four frequencies (30_encoding.md R78). -/
theorem divisor_eq_two_pow_shiftOf (f : BitVec 2) : [1, 64, 256, 1024].getD f.toNat 1 = 2 ^ shiftOf f := by
  revert f; decide

/-- Settles O37: the edge puts the counter at `reload` and keeps the leftover, so the ADVANCE counts no tick
below the new divisor and one tick from there to below its double. -/
theorem firstTickComesEarlyByLeftover : Obligations.FirstTickComesEarlyByLeftover := by
  intro s i ctrl n hdisabled hset hfree hreload divisor
  obtain ⟨u, hu, hctrl⟩ := execAll_wrCtrl s i ctrl [.adv n]
  have henable : (u.timer i).enable = true := by rw [hctrl, writeControl_enable, hset]
  have hcascade : (u.timer i).cascade = false := by rw [hctrl, writeControl_cascade, hfree]
  have hcounter : (u.timer i).counter = (s.timer i).reload := by
    rw [hctrl, writeControl_counter_edge hdisabled hset]
  have hcycles : (u.timer i).cycles = (s.timer i).cycles := by rw [hctrl, writeControl_cycles]
  have hdivisor : divisor = 2 ^ (u.timer i).shift := by
    rw [hctrl, writeControl_shift, ← divisor_eq_two_pow_shiftOf]
  have hspan : 1 < spanToWrap (u.timer i) := by
    rw [spanToWrap, hcounter]
    bv_omega
  refine ⟨_, hu.trans (execAll_cons (exec_adv_nat n u) []), ?_⟩
  rw [hdivisor, ← hcycles, ← hcounter]
  refine ⟨fun hnone => ?_, fun hone htwo => ?_⟩
  · have hticks := ticksOf_eq_zero hnone
    obtain ⟨hcount, -⟩ := afterAdvance_free_of_lt henable hcascade (n := n) (by omega)
    rw [hticks] at hcount
    exact BitVec.eq_of_toNat_eq hcount
  · have hticks := ticksOf_eq_one hone htwo
    obtain ⟨hcount, -⟩ := afterAdvance_free_of_lt henable hcascade (n := n) (by omega)
    rw [hticks] at hcount
    rw [spanToWrap] at hspan
    bv_omega

/-! ### Small batches (R190) -/

/-- With the leftover under the divisor, `k` divisors of base cycles are at most `k` ticks. -/
theorem ticksOf_le {t : Timer} {n k : Nat} (hcycles : t.cycles < 2 ^ t.shift) (hn : n ≤ k * 2 ^ t.shift) :
    ticksOf t n ≤ k := by
  rw [ticksOf_eq_div, ← Nat.lt_succ_iff, Nat.div_lt_iff_lt_mul (Nat.two_pow_pos _), Nat.succ_mul]
  omega

/-- No more ticks than one period wrap at most once, since the first wrap takes at least one tick. -/
theorem freeWraps_le_one {t : Timer} {n : Nat} (h : ticksOf t n ≤ wrapPeriod t) : freeWraps t n ≤ 1 := by
  have hspan := spanToWrap_pos t
  have hperiod := wrapPeriod_pos t
  unfold freeWraps
  split
  · exact Nat.zero_le 1
  · rw [Nat.div_eq_of_lt (by omega)]

/-- Settles O48: such a batch is at most one period of ticks. -/
theorem smallBatchWrapsAtMostOnce : Obligations.SmallBatchWrapsAtMostOnce := by
  rintro s n i ⟨htimers, -⟩ henable hcascade hcycles hn
  obtain ⟨w, hports, hw⟩ := afterAdvance_wraps n s
  refine ⟨_, w, exec_adv_nat n s, hports, ?_⟩
  rw [hw, visited_wraps_free henable hcascade]
  exact freeWraps_le_one (ticksOf_le ((htimers i).cycles_lt hcycles) hn)

/-! ### IF (R181; 10_state.md R32; 60_exceptions.md R162) -/

/-- Every operation keeps `IF`, but for an ADVANCE, which ORs its requests into it. -/
theorem exec_IF {i : Instr} {s t : State} (h : exec i s = .next t) :
    t.IF = s.IF ∨ ∃ n : Nat, i = .adv n ∧ t.IF = s.IF ||| passRequests n s := by
  obtain ⟨j, -, rfl⟩ | ⟨j, -, rfl⟩ | ⟨j, -, rfl⟩ | ⟨j, -, rfl⟩ | ⟨j, v, -, rfl⟩ | ⟨j, v, -, rfl⟩ |
    ⟨j, v, -, rfl⟩ | ⟨j, v, -, rfl⟩ | ⟨n, rfl, rfl⟩ | ⟨-, rfl⟩ := exec_next h
  iterate 8 exact .inl rfl
  · exact .inr ⟨n, rfl, afterAdvance_IF n s⟩
  · exact .inl rfl

/-- Settles O39, by `exec_IF`: what is ORed into `IF` holds request bits only. -/
theorem ifOnlyGainsRequestBits : Obligations.IFOnlyGainsRequestBits := by
  refine ⟨fun i s t h k => ?_, irqBase_add_lt, Config.sixteen_le_irqWidth⟩
  obtain hkept | ⟨n, rfl, hgained⟩ := exec_IF h
  · rw [hkept]
    exact ⟨id, fun hset hclear => absurd (hclear.symm.trans hset) Bool.false_ne_true⟩
  · rw [hgained, BitVec.getLsbD_or]
    refine ⟨fun hset => by rw [hset, Bool.true_or], fun hset hclear => ⟨⟨n, rfl⟩, ?_⟩⟩
    rw [hclear, Bool.false_or, passRequests_getLsbD] at hset
    obtain ⟨j, hk, -⟩ := hset
    exact ⟨j, hk⟩

end Sys2Proof.Machine
end

section
/-!
PROOFS about the whole machine: what an operation writes, the invariant through every step (10_state.md R21,
R27, R29; 60_exceptions.md R162), runs under the caller's contract (20_memory.md R66), and the fault of
60_exceptions.md R160.
-/

namespace Sys2Proof.Machine

/-! ### What an operation writes -/

/-- If `exec` answers a next state, the operation wrote only the outputs (a READ or `wr.unused`), or one
timer's `reload`, or one timer by a control WRITE, or what ADVANCE or RESET writes. -/
theorem exec_next_writes {i : Instr} {s t : State} (h : exec i s = .next t) :
    (∃ p : Ports, p.irqSet = 0 ∧ p.wraps = none ∧ t = { s with ports := p }) ∨
    (∃ (j : Fin 4) (r : HalfWord),
      ((∃ v : Byte, i = .wrRldl j.val v) ∨ ∃ v : Byte, i = .wrRldh j.val v) ∧
        t = (s.setTimer j { s.timer j with reload := r }).quiet) ∨
    (∃ (j : Fin 4) (v : Byte), i = .wrCtrl j.val v ∧
      t = (s.setTimer j (writeControl (s.timer j) v)).quiet) ∨
    (∃ n : Nat, i = .adv n ∧ t = afterAdvance n s) ∨
    (i = .reset ∧ t = ({ s with timers := initialTimers } : State).quiet) := by
  obtain ⟨j, -, rfl⟩ | ⟨j, -, rfl⟩ | ⟨j, -, rfl⟩ | ⟨j, -, rfl⟩ | ⟨j, v, hi, rfl⟩ | ⟨j, v, hi, rfl⟩ |
    ⟨j, v, hi, rfl⟩ | ⟨j, v, -, rfl⟩ | hadv | hreset := exec_next h
  iterate 4 exact .inl ⟨_, rfl, rfl, rfl⟩
  · exact .inr (.inl ⟨j, _, .inl ⟨v, hi⟩, rfl⟩)
  · exact .inr (.inl ⟨j, _, .inr ⟨v, hi⟩, rfl⟩)
  · exact .inr (.inr (.inl ⟨j, v, hi, rfl⟩))
  · exact .inl ⟨_, rfl, rfl, rfl⟩
  · exact .inr (.inr (.inr (.inl hadv)))
  · exact .inr (.inr (.inr (.inr hreset)))

/-- ADVANCE changes only `counter`, `cycles` and `overflow` of a timer (10_state.md R37). -/
theorem afterAdvance_frame (n : Nat) (s : State) (i : Fin 4) :
    (afterAdvance n s).timer i =
      { s.timer i with
        counter := ((afterAdvance n s).timer i).counter
        cycles := ((afterAdvance n s).timer i).cycles
        overflow := ((afterAdvance n s).timer i).overflow } := by
  rw [afterAdvance_timer, visited_frame]
  rfl

/-- Only a free-running step writes `cycles`, and it leaves what the mask takes (10_state.md R28,
41_advance_engine.md R128). -/
theorem afterAdvance_cycles (n : Nat) (s : State) (i : Fin 4) :
    ((afterAdvance n s).timer i).cycles =
      if (s.timer i).freeRunning then available (s.timer i) n &&& (s.timer i).mask else (s.timer i).cycles := by
  rw [afterAdvance_timer, visited]
  split
  · rw [freeRun_eq]
    rfl
  · split <;> rfl

/-! ### The invariant (10_state.md R21, R27, R29; 60_exceptions.md R162) -/

theorem Timer.inv_initial (i : Fin 4) : Timer.Inv i (Timer.initial i) :=
  ⟨rfl, rfl, rfl, Nat.zero_le _⟩

/-- A control WRITE computes `shift` and `mask` from the frequency it stores (30_encoding.md R78). -/
theorem Timer.inv_writeControl {i : Fin 4} {t : Timer} (h : Timer.Inv i t) (v : Byte) :
    Timer.Inv i (writeControl t v) := by
  obtain ⟨hid, -, -, hcycles⟩ := h
  refine ⟨?_, ?_, ?_, ?_⟩
  · rw [writeControl_id, hid]
  · rw [writeControl_shift, writeControl_frequency]
  · rw [writeControl_mask, writeControl_frequency]
  · rwa [writeControl_cycles]

theorem Timer.Inv.mask_le {i : Fin 4} {t : Timer} (h : Timer.Inv i t) : t.mask ≤ 0x3FF := by
  obtain ⟨-, -, hmask, -⟩ := h
  rw [hmask]
  exact maskOf_le _

/-- ADVANCE writes no field of the invariant but `cycles`, which a free-running step puts under the mask. -/
theorem Timer.inv_afterAdvance {s : State} {i : Fin 4} (h : Timer.Inv i (s.timer i)) (n : Nat) :
    Timer.Inv i ((afterAdvance n s).timer i) := by
  have hmask := h.mask_le
  obtain ⟨hid, hshift, hdivisor, hcycles⟩ := h
  have hbound : ((afterAdvance n s).timer i).cycles ≤ 0x3FF := by
    rw [afterAdvance_cycles]
    split
    · exact Nat.and_le_right.trans hmask
    · exact hcycles
  rw [afterAdvance_frame]
  exact ⟨hid, hshift, hdivisor, hbound⟩

/-- Replacing one record by one in order keeps all records in order. -/
theorem timersInv_setTimer {s : State} (h : ∀ k, Timer.Inv k (s.timer k)) {i : Fin 4} {t : Timer}
    (ht : Timer.Inv i t) (k : Fin 4) : Timer.Inv k ((s.setTimer i t).timer k) := by
  rw [State.timer_setTimer]
  split
  · subst k
    exact ht
  · exact h k

/-- No request at all is no request but the four. -/
theorem Ports.inv_of_irqSet {p : Ports} (h : p.irqSet = 0) : p.Inv := by
  intro k hk
  rw [h] at hk
  simp at hk

theorem afterAdvance_ports_inv (n : Nat) (s : State) : (afterAdvance n s).ports.Inv := by
  intro k hk
  rw [afterAdvance_irqSet, passRequests_getLsbD] at hk
  obtain ⟨i, hbit, -⟩ := hk
  exact ⟨i, hbit⟩

/-- Every operation keeps the invariant. -/
theorem exec_keeps_inv {i : Instr} {s t : State} (h : exec i s = .next t) (hs : s.Inv) : t.Inv := by
  obtain ⟨htimers, -⟩ := hs
  obtain ⟨p, hp, -, rfl⟩ | ⟨j, r, -, rfl⟩ | ⟨j, v, -, rfl⟩ | ⟨n, -, rfl⟩ | ⟨-, rfl⟩ := exec_next_writes h
  · exact ⟨htimers, Ports.inv_of_irqSet hp⟩
  · exact ⟨timersInv_setTimer htimers (htimers j), Ports.inv_of_irqSet rfl⟩
  · exact ⟨timersInv_setTimer htimers (Timer.inv_writeControl (htimers j) v), Ports.inv_of_irqSet rfl⟩
  · exact ⟨fun k => Timer.inv_afterAdvance (htimers k) n, afterAdvance_ports_inv n s⟩
  · refine ⟨fun k => ?_, Ports.inv_of_irqSet rfl⟩
    rw [timer_afterReset]
    exact Timer.inv_initial k

/-- Settles O55: every timer is at its reset record, and no request is given. -/
theorem invariantHoldsAtReset : Obligations.InvariantHoldsAtReset := by
  refine ⟨fun i => ?_, Ports.inv_of_irqSet State.reset_irqSet⟩
  rw [State.reset_timer]
  exact Timer.inv_initial i

/-- Settles O56: a step runs one operation, which keeps the invariant, or writes only `IF` and the list of
moves, of which the invariant does not speak. -/
theorem stepKeepsInvariant : Obligations.StepKeepsInvariant := by
  intro s t hs hstep
  obtain ⟨-, rfl⟩ | ⟨x, rest, -, hmove⟩ := step_next hstep
  · exact hs
  · obtain ⟨i, hexec⟩ | ⟨ops, rfl⟩ | ⟨word, rfl⟩ := applyInput_next hmove
    · exact exec_keeps_inv hexec hs
    · exact hs
    · exact hs

/-! ### Runs under the caller's contract (20_memory.md R66, 60_exceptions.md R160) -/

theorem Input.wellFormed_of_inContract {c : Command} (h : (Input.command c).inContract = true) :
    ∃ i : Instr, decode c = .ok i ∧ i.wellFormed = true := by
  rw [Input.inContract] at h
  split at h
  · exact ⟨_, ‹_›, wellFormed_of_decode ‹_›⟩
  · cases h

/-- A well-formed operation completes and leaves the moves to come. -/
theorem exec_keeps_contract {i : Instr} (hi : i.wellFormed = true) {s : State} (hs : s.InContract) :
    ∃ t : State, exec i s = .next t ∧ t.InContract := by
  obtain ⟨t, ht⟩ := exec_of_wellFormed hi s
  refine ⟨t, ht, ?_⟩
  rw [State.InContract, exec_inputs ht]
  exact hs

/-- The byte READs of a guest read are within the contract, whatever the decoder does outside the window. -/
theorem guestReadOps_inContract {addr width : Nat} {x : Input} (h : x ∈ guestReadOps addr width) :
    x.inContract = true := by
  obtain ⟨j, -, hj⟩ := List.mem_filterMap.1 h
  obtain ⟨p, hroute, rfl⟩ := Option.map_eq_some_iff.1 hj
  exact decide_eq_true (routeGuest_lt hroute)

theorem guestWriteOps_inContract {addr : Nat} {bytes : List Byte} {x : Input}
    (h : x ∈ guestWriteOps addr bytes) : x.inContract = true := by
  obtain ⟨j, -, hj⟩ := List.mem_filterMap.1 h
  obtain ⟨p, hroute, rfl⟩ := Option.map_eq_some_iff.1 hj
  exact decide_eq_true (routeGuest_lt hroute)

/-- Byte operations within the contract, put before moves within it. -/
theorem State.InContract.prepend {s : State} (hs : s.InContract) {ops : List Input}
    (hops : ∀ x ∈ ops, x.inContract = true) : ({ s with inputs := ops ++ s.inputs } : State).InContract :=
  List.forall_mem_append.2 ⟨hops, hs⟩

/-- A move within the contract is made, and the moves after it keep the contract. -/
theorem applyInput_of_inContract {x : Input} (hx : x.inContract = true) {s : State} (hs : s.InContract) :
    ∃ t : State, applyInput x s = .next t ∧ t.InContract := by
  cases x with
  | command c =>
    obtain ⟨i, hdecode, hi⟩ := Input.wellFormed_of_inContract hx
    rw [applyInput, presentCommand, hdecode]
    exact exec_keeps_contract hi hs
  | read id offset => exact exec_keeps_contract ((Instr.wellFormed_ofRead id offset).trans hx) hs
  | write id offset v => exact exec_keeps_contract ((Instr.wellFormed_ofWrite id offset v).trans hx) hs
  | advance n => exact exec_keeps_contract (i := .adv n) hx hs
  | reset => exact exec_keeps_contract (i := .reset) rfl hs
  | guestRead addr width => exact ⟨_, rfl, hs.prepend fun _ => guestReadOps_inContract⟩
  | guestWrite addr bytes => exact ⟨_, rfl, hs.prepend fun _ => guestWriteOps_inContract⟩
  | interruptController clear set => exact ⟨_, rfl, hs⟩

theorem step_of_inContract {s : State} (hs : s.InContract) : ∃ t : State, step s = .next t ∧ t.InContract := by
  cases hmoves : s.inputs with
  | nil => exact ⟨s, by rw [step, hmoves], hs⟩
  | cons x rest =>
    rw [State.InContract, hmoves] at hs
    obtain ⟨hx, hrest⟩ := List.forall_mem_cons.1 hs
    rw [step, hmoves]
    exact applyInput_of_inContract hx (s := { s with inputs := rest }) hrest

/-- Settles O57, by induction on the length of the run: its first step completes and keeps both. -/
theorem contractKeepsEveryRunGoing : Obligations.ContractKeepsEveryRunGoing := by
  intro s hs k
  induction k generalizing s with
  | zero => exact ⟨s, core_run_zero s, hs, id⟩
  | succ k ih =>
    obtain ⟨u, hstep, hu⟩ := step_of_inContract hs
    obtain ⟨t, hrun, ht, hinv⟩ := ih u hu
    exact ⟨t, (core_run_succ hstep k).trans hrun, ht, fun h => hinv (stepKeepsInvariant s u h hstep)⟩

/-! ### The fault (60_exceptions.md R160, R161) -/

theorem le_of_not_validId {id : Nat} (h : validId id = false) : 4 ≤ id :=
  Nat.le_of_not_lt (of_decide_eq_false h)

/-- Settles O52, form by form: what is not well formed has an index that fails the check of R100, or a
negative count. -/
theorem faultExactlyOnContractViolation : Obligations.FaultExactlyOnContractViolation := by
  refine fun i s => ⟨fun h => exec_of_wellFormed h s, fun h => ?_⟩
  cases i with
  | rdCntl id => exact .inl ⟨id, le_of_not_validId h, exec_rdCntl_of_ge (le_of_not_validId h) s, by simp⟩
  | rdCnth id => exact .inl ⟨id, le_of_not_validId h, exec_rdCnth_of_ge (le_of_not_validId h) s, by simp⟩
  | rdCtrl id => exact .inl ⟨id, le_of_not_validId h, exec_rdCtrl_of_ge (le_of_not_validId h) s, by simp⟩
  | rdUnused id => exact .inl ⟨id, le_of_not_validId h, exec_rdUnused_of_ge (le_of_not_validId h) s, by simp⟩
  | wrRldl id v => exact .inl ⟨id, le_of_not_validId h, exec_wrRldl_of_ge (le_of_not_validId h) v s, by simp⟩
  | wrRldh id v => exact .inl ⟨id, le_of_not_validId h, exec_wrRldh_of_ge (le_of_not_validId h) v s, by simp⟩
  | wrCtrl id v => exact .inl ⟨id, le_of_not_validId h, exec_wrCtrl_of_ge (le_of_not_validId h) v s, by simp⟩
  | wrUnused id v => exact .inl ⟨id, le_of_not_validId h, exec_wrUnused_of_ge (le_of_not_validId h) v s, by simp⟩
  | adv n =>
    have hn : n < 0 := Int.not_le.1 (of_decide_eq_false h)
    exact .inr ⟨n, hn, rfl, exec_adv_of_neg hn s⟩
  | reset => cases h

end Sys2Proof.Machine
end

section
/-!
PROOFS of 30_encoding.md: the encoder against the decoder (R70, R71), the opcode map (R81), and the commands a
step runs.
-/

namespace Sys2Proof

/-! ### The encoder and the decoder (R70, R71) -/

theorem decode_advance_word (n : Nat) : decode ⟨commandWord .advance 0 0, .count n⟩ = .ok (.adv n) := by
  obtain ⟨hkind, -, -⟩ := commandWord_fields .advance 0 0 (by decide) (by decide)
  simp [decode, hkind]

theorem decode_reset_word : decode ⟨commandWord .reset 0 0, .none⟩ = .ok .reset := rfl

/-- Settles O8, form by form: a READ or WRITE word gives back its index and offset, an ADVANCE its count. -/
theorem decodeEncode : Obligations.DecodeEncode := by
  intro i h
  cases i with
  | rdCntl id => exact decode_read_word (of_decide_eq_true h) (by decide : 0 < 4)
  | rdCnth id => exact decode_read_word (of_decide_eq_true h) (by decide : 1 < 4)
  | rdCtrl id => exact decode_read_word (of_decide_eq_true h) (by decide : 2 < 4)
  | rdUnused id => exact decode_read_word (of_decide_eq_true h) (by decide : 3 < 4)
  | wrRldl id v => exact decode_write_word (of_decide_eq_true h) (by decide : 0 < 4) v
  | wrRldh id v => exact decode_write_word (of_decide_eq_true h) (by decide : 1 < 4) v
  | wrCtrl id v => exact decode_write_word (of_decide_eq_true h) (by decide : 2 < 4) v
  | wrUnused id v => exact decode_write_word (of_decide_eq_true h) (by decide : 3 < 4) v
  | adv n =>
    obtain ⟨k, rfl⟩ := Int.eq_ofNat_of_zero_le (of_decide_eq_true h : 0 ≤ n)
    exact decode_advance_word k
  | reset => exact decode_reset_word

theorem encode_ofRead (id : Nat) {offset : Nat} (h : offset < 4) :
    encode (.ofRead id offset) = ⟨commandWord .read id offset, .none⟩ := by
  interval_cases offset <;> rfl

theorem encode_ofWrite (id : Nat) {offset : Nat} (h : offset < 4) (v : Byte) :
    encode (.ofWrite id offset v) = ⟨commandWord .write id offset, .byte v⟩ := by
  interval_cases offset <;> rfl

/-- Settles O9, kind by kind: a word that decodes is put together from its own fields, so encoding these fields
gives it back. -/
theorem encodeDecode : Obligations.EncodeDecode := by
  rintro ⟨word, payload⟩ i h
  obtain ⟨hreserved, hkinds⟩ := decode_ok h
  obtain ⟨hword, hzero⟩ := commandWord_of_fields word hreserved
  obtain ⟨hkind, rfl, rfl⟩ | ⟨v, hkind, rfl, rfl⟩ | ⟨n, hkind, rfl, rfl⟩ | ⟨hkind, rfl, rfl⟩ := hkinds
  · rw [encode_ofRead _ (offsetOf_lt word), ← hkind, hword]
  · rw [encode_ofWrite _ (offsetOf_lt word), ← hkind, hword]
  · obtain ⟨hid, hoffset⟩ := hzero (.inl hkind)
    rw [hkind, hid, hoffset] at hword
    exact congrArg (Command.mk · (.count n)) hword
  · obtain ⟨hid, hoffset⟩ := hzero (.inr hkind)
    rw [hkind, hid, hoffset] at hword
    exact congrArg (Command.mk · .none) hword

/-- Settles O7: six words of a READ or WRITE by their fields, and the words of `adv` and `reset`. -/
theorem sampleWordsDecode : Obligations.SampleWordsDecode :=
  ⟨Machine.decode_ofNat_read 3 0, Machine.decode_ofNat_read 1 1, Machine.decode_ofNat_read 2 2,
    Machine.decode_ofNat_read 0 3, Machine.decode_ofNat_write 0 0 0x5A, Machine.decode_ofNat_write 3 1 0xA5,
    Machine.decode_ofNat_write 2 2 0xFF, Machine.decode_ofNat_write 1 3 0xAA, decode_advance_word 65791,
    decode_reset_word⟩

/-! ### The opcode map (R81) -/

/-- The family TableRow for every form. -/
theorem tableRow_of_wellFormed (i : Instr) : Laws.TableRow.Statement i := by
  cases i with
  | rdCntl id => exact Laws.TableRow.rdCntl id
  | rdCnth id => exact Laws.TableRow.rdCnth id
  | rdCtrl id => exact Laws.TableRow.rdCtrl id
  | rdUnused id => exact Laws.TableRow.rdUnused id
  | wrRldl id v => exact Laws.TableRow.wrRldl id v
  | wrRldh id v => exact Laws.TableRow.wrRldh id v
  | wrCtrl id v => exact Laws.TableRow.wrCtrl id v
  | wrUnused id v => exact Laws.TableRow.wrUnused id v
  | adv n => exact Laws.TableRow.adv n
  | reset => exact Laws.TableRow.reset

/-- A row covers no reserved word: its mask takes in the two reserved bits, and all low bits of an ADVANCE or
RESET word. -/
theorem not_covers_of_isReserved {w : Byte} (h : isReserved w = true) :
    ∀ r ∈ opcodeTable, ¬ r.covers w = true := by
  revert w; decide

/-- Settles O11: the word of a command that decodes is that of the encoded operation. -/
theorem opcodeMapUnambiguous : Obligations.OpcodeMapUnambiguous := by
  refine ⟨fun c i h => ?_, fun w h => List.filter_eq_nil_iff.2 (not_covers_of_isReserved h)⟩
  have hrow := tableRow_of_wellFormed i (wellFormed_of_decode h)
  rwa [encodeDecode c i h] at hrow

end Sys2Proof
end

section
/-!
PROOFS of 20_memory.md: the environment's moves (R63 to R66), and guest accesses to the register window (R51,
R52, R55).
-/

namespace Sys2Proof.Machine

/-! ### Presented commands and the source's calls (R63 to R66) -/

theorem presentCommand_of_decode {c : Command} {i : Instr} (h : decode c = .ok i) (s : State) :
    presentCommand c s = exec i s := by
  rw [presentCommand, h]

theorem decode_of_decodeTableWord {nbits w : Nat} {i : Instr} (h : decodeTableWord nbits w = some i) :
    decode (tableCommand nbits w) = .ok i := by
  unfold decodeTableWord at h
  split at h
  · cases h
    assumption
  · cases h

/-- Settles O1: the move of a presented command is to run what it decodes to. -/
theorem stepRunsDecodedCommand : Obligations.StepRunsDecodedCommand := by
  refine ⟨fun s c rest i h => ⟨wellFormed_of_decode h, ?_⟩, fun s nbits w i h => ?_⟩
  · rw [step_cons]
    exact presentCommand_of_decode h _
  · rw [State.withFetchWord, step_cons]
    exact presentCommand_of_decode (decode_of_decodeTableWord h) s

/-- A bit of a word after some bits are cleared and then some are set. -/
theorem getLsbD_clear_set (word clear set : IrqWord) (k : Nat) :
    ((word &&& ~~~clear) ||| set).getLsbD k = ((word.getLsbD k && !clear.getLsbD k) || set.getLsbD k) := by
  by_cases hk : k < Config.irqWidth
  · simp [hk]
  · simp [BitVec.getLsbD_of_ge _ _ (Nat.le_of_not_lt hk)]

/-- Settles O2: each call is its own operation by definition, and the controller's move is read bit by bit. -/
theorem stepMakesEnvironmentMove : Obligations.StepMakesEnvironmentMove := by
  refine fun s rest => ⟨rfl, fun n => rfl, rfl, fun id => ⟨rfl, rfl, rfl⟩, fun id v => ⟨rfl, rfl, rfl⟩,
    fun clear set => ⟨{ s with IF := (s.IF &&& ~~~clear) ||| set, inputs := rest }, rfl, rfl, rfl, rfl, ?_⟩⟩
  exact fun k => getLsbD_clear_set s.IF clear set k

/-! ### Guest accesses to the window (R51, R52, R55) -/

/-- The decoder's order makes each byte of an access once. -/
theorem map_wideOrder_perm {α : Type} (write : Bool) (addr width : Nat) (f : Nat → α) :
    ((List.finRange width).map fun j => f (Config.wideOrder write addr width j).val).Perm
      ((List.range width).map f) := by
  have h := ((Config.wideOrder write addr width).map_finRange_perm).map (f ∘ Fin.val)
  rw [← List.map_coe_finRange_eq_range, List.map_map]
  rwa [List.map_map] at h

/-- The byte READ of byte `k` of an access that begins at offset `rel` of the window. -/
def windowRead (rel k : Nat) : Input := .read ((rel + k) / 4) ((rel + k) % 4)

/-- The byte WRITE of byte `k` of such an access. -/
def windowWrite (rel : Nat) (bytes : List Byte) (k : Nat) : Input :=
  .write ((rel + k) / 4) ((rel + k) % 4) (bytes.getD k 0)

theorem routeGuest_byte {rel width : Nat} (h : rel + width ≤ 16) (k : Fin width) :
    routeGuest (Config.timerBase + rel + k.val) = some ((rel + k.val) / 4, (rel + k.val) % 4) := by
  rw [Nat.add_assoc, routeGuest_window (by omega)]

/-- In the window every byte of a guest read is one byte READ. -/
theorem guestReadOps_window {rel width : Nat} (h : rel + width ≤ 16) :
    guestReadOps (Config.timerBase + rel) width =
      (List.finRange width).map fun j =>
        windowRead rel (Config.wideOrder false (Config.timerBase + rel) width j).val := by
  rw [guestReadOps, ← List.filterMap_eq_map]
  refine List.filterMap_congr fun j _ => ?_
  rw [routeGuest_byte h]
  rfl

/-- In the window every byte of a guest write is one byte WRITE of its value. -/
theorem guestWriteOps_window {rel : Nat} {bytes : List Byte} (h : rel + bytes.length ≤ 16) :
    guestWriteOps (Config.timerBase + rel) bytes =
      (List.finRange bytes.length).map fun j =>
        windowWrite rel bytes (Config.wideOrder true (Config.timerBase + rel) bytes.length j).val := by
  rw [guestWriteOps, ← List.filterMap_eq_map]
  refine List.filterMap_congr fun j _ => ?_
  dsimp only [Function.comp_apply, windowWrite]
  rw [routeGuest_byte h, List.getD_eq_getElem _ _ (Fin.isLt _)]
  rfl

/-- Settles O5: each byte is routed to the window, in an order that is a permutation. -/
theorem wideGuestWriteIsItsByteWrites : Obligations.WideGuestWriteIsItsByteWrites := by
  refine fun s rest rel bytes h => ⟨guestWriteOps (Config.timerBase + rel) bytes, rfl, ?_⟩
  rw [guestWriteOps_window h]
  exact map_wideOrder_perm true _ _ (windowWrite rel bytes)

/-- Settles O6: each byte is routed to the window, in an order that is a permutation. -/
theorem wideGuestReadIsItsByteReads : Obligations.WideGuestReadIsItsByteReads := by
  refine fun s rest rel width h => ⟨guestReadOps (Config.timerBase + rel) width, rfl, ?_⟩
  rw [guestReadOps_window h]
  exact map_wideOrder_perm false _ _ (windowRead rel)

/-- Settles O4: an access of one byte is a wide access of width 1, which has one order. -/
theorem guestByteAccessIsWindowByte : Obligations.GuestByteAccessIsWindowByte := by
  intro s rest i offset v
  have hin : 4 * i.val + offset.val + 1 ≤ 16 := by omega
  have hid : (4 * i.val + offset.val + 0) / 4 = i.val := by omega
  have hoffset : (4 * i.val + offset.val + 0) % 4 = offset.val := by omega
  constructor
  · obtain ⟨ops, hstep, hops⟩ := wideGuestReadIsItsByteReads s rest (4 * i.val + offset.val) 1 hin
    rw [List.range_one, List.map_singleton, hid, hoffset] at hops
    rw [Nat.add_assoc, hstep, List.perm_singleton.1 hops]
    rfl
  · obtain ⟨ops, hstep, hops⟩ := wideGuestWriteIsItsByteWrites s rest (4 * i.val + offset.val) [v] hin
    rw [List.length_singleton, List.range_one, List.map_singleton, hid, hoffset] at hops
    rw [Nat.add_assoc, hstep, List.perm_singleton.1 hops]
    rfl

end Sys2Proof.Machine
end

section
/-!
PROOFS of 10_state.md and 40_bus_interface.md: what each operation leaves of a timer (R23 to R30, R37, R109),
control bytes and reload bytes read back (R25, 30_encoding.md R83), and `IF`, which nothing reads (R32).
-/

namespace Sys2Proof.Machine

/-! ### READ (10_state.md R37) -/

/-- The control byte is packed from the control fields (30_encoding.md R76). -/
theorem controlByte_congr {t u : Timer} (hfrequency : t.frequency = u.frequency)
    (hcascade : t.cascade = u.cascade) (hinterrupt : t.interrupt = u.interrupt) (henable : t.enable = u.enable) :
    controlByte t = controlByte u := by
  rw [controlByte_eq, controlByte_eq, hfrequency, hcascade, hinterrupt, henable]

/-- A READ answers from the counter and the control byte alone. -/
theorem readByte_congr {t u : Timer} (hcounter : t.counter = u.counter) (hcontrol : controlByte t = controlByte u)
    (offset : Nat) : readByte t offset = readByte u offset := by
  unfold readByte
  rw [hcounter, hcontrol]

/-- Settles O17: the two states give the same byte, and a READ writes the outputs only. -/
theorem readsSeeOnlyCounterAndControl : Obligations.ReadsSeeOnlyCounterAndControl := by
  intro s s' i offset hcounter hfrequency hcascade hinterrupt henable
  have hcontrol := controlByte_congr hfrequency hcascade hinterrupt henable
  have hbyte := readByte_congr hcounter hcontrol offset
  refine ⟨_, _, readByte (s.timer i) offset, exec_ofRead i offset s, exec_ofRead i offset s', ?_, ?_, ?_⟩
  · exact State.answer_busRdata ..
  · rw [State.answer_busRdata, ← hbyte]
  · exact ⟨rfl, rfl, rfl⟩

/-! ### Who writes the fields of a timer (10_state.md R22 to R30) -/

/-- What an operation leaves of timer `j`. -/
theorem exec_timer {i : Instr} {s t : State} (h : exec i s = .next t) (j : Fin 4) :
    t.timer j = s.timer j ∨
    (((∃ v : Byte, i = .wrRldl j.val v) ∨ ∃ v : Byte, i = .wrRldh j.val v) ∧
      ∃ r : HalfWord, t.timer j = { s.timer j with reload := r }) ∨
    (∃ v : Byte, i = .wrCtrl j.val v ∧ t.timer j = writeControl (s.timer j) v) ∨
    (∃ n : Nat, i = .adv n ∧ t = afterAdvance n s) ∨
    i = .reset := by
  obtain ⟨p, -, -, rfl⟩ | ⟨k, r, hi, rfl⟩ | ⟨k, v, hi, rfl⟩ | hadv | ⟨hreset, -⟩ := exec_next_writes h
  · exact .inl rfl
  · by_cases hk : k = j
    · subst hk
      exact .inr (.inl ⟨hi, r, State.timer_setTimer_self ..⟩)
    · exact .inl (State.timer_setTimer_ne _ _ hk)
  · by_cases hk : k = j
    · subst hk
      exact .inr (.inr (.inl ⟨v, hi, State.timer_setTimer_self ..⟩))
    · exact .inl (State.timer_setTimer_ne _ _ hk)
  · exact .inr (.inr (.inr (.inl hadv)))
  · exact .inr (.inr (.inr (.inr hreset)))

/-- The two records agree in the control fields and in what follows from `frequency`. -/
def Timer.sameControl (t u : Timer) : Prop :=
  t.shift = u.shift ∧ t.mask = u.mask ∧ t.frequency = u.frequency ∧ t.cascade = u.cascade ∧
    t.interrupt = u.interrupt ∧ t.enable = u.enable

theorem Timer.sameControl.refl (t : Timer) : t.sameControl t := ⟨rfl, rfl, rfl, rfl, rfl, rfl⟩

theorem Timer.sameControl.controlByte {t u : Timer} (h : t.sameControl u) : controlByte t = controlByte u := by
  obtain ⟨-, -, hfrequency, hcascade, hinterrupt, henable⟩ := h
  exact controlByte_congr hfrequency hcascade hinterrupt henable

theorem afterAdvance_sameControl (n : Nat) (s : State) (i : Fin 4) :
    ((afterAdvance n s).timer i).sameControl (s.timer i) := by
  rw [afterAdvance_frame]
  exact Timer.sameControl.refl _

/-- An ADVANCE changes `cycles` only of an enabled timer without `cascade` (R28). -/
theorem afterAdvance_cycles_ne {n : Nat} {s : State} {i : Fin 4}
    (h : ((afterAdvance n s).timer i).cycles ≠ (s.timer i).cycles) :
    (s.timer i).enable = true ∧ (s.timer i).cascade = false := by
  rw [afterAdvance_cycles] at h
  by_contra hnot
  exact h (if_neg (mt Timer.freeRunning_iff.1 hnot))

section Writers

variable {i : Instr} {s t : State} (h : exec i s = .next t) (hreset : i ≠ .reset) (j : Fin 4)
include h hreset

/-- `reload` is written by the two reload WRITEs of its timer (R23). -/
theorem exec_reload : (t.timer j).reload = (s.timer j).reload ∨
    (∃ v : Byte, i = .wrRldl j.val v) ∨ ∃ v : Byte, i = .wrRldh j.val v := by
  obtain hsame | ⟨hi, -⟩ | ⟨v, -, hctrl⟩ | ⟨n, -, rfl⟩ | hi := exec_timer h j
  · exact .inl (by rw [hsame])
  · exact .inr hi
  · exact .inl (by rw [hctrl, writeControl_reload])
  · exact .inl (by rw [afterAdvance_frame])
  · exact absurd hi hreset

/-- The control fields, `shift` and `mask` are written by the control WRITE of their timer (R25, R27). -/
theorem exec_control : (t.timer j).sameControl (s.timer j) ∨ ∃ v : Byte, i = .wrCtrl j.val v := by
  obtain hsame | ⟨-, r, hreload⟩ | ⟨v, hi, -⟩ | ⟨n, -, rfl⟩ | hi := exec_timer h j
  · exact .inl (by rw [hsame]; exact .refl _)
  · exact .inl (by rw [hreload]; exact .refl _)
  · exact .inr ⟨v, hi⟩
  · exact .inl (afterAdvance_sameControl n s j)
  · exact absurd hi hreset

/-- `cycles` is written by a free-running step (R28). -/
theorem exec_cycles : (t.timer j).cycles = (s.timer j).cycles ∨
    ∃ n : Nat, i = .adv n ∧ (s.timer j).enable = true ∧ (s.timer j).cascade = false := by
  obtain hsame | ⟨-, r, hreload⟩ | ⟨v, -, hctrl⟩ | ⟨n, hi, rfl⟩ | hi := exec_timer h j
  · exact .inl (by rw [hsame])
  · exact .inl (by rw [hreload])
  · exact .inl (by rw [hctrl, writeControl_cycles])
  · exact (em _).imp_right fun hne => ⟨n, hi, afterAdvance_cycles_ne hne⟩
  · exact absurd hi hreset

/-- `overflow` is written by ADVANCE (R30). -/
theorem exec_overflow : (t.timer j).overflow = (s.timer j).overflow ∨
    ∃ n : Nat, i = .adv n ∧ t = afterAdvance n s := by
  obtain hsame | ⟨-, r, hreload⟩ | ⟨v, -, hctrl⟩ | hadv | hi := exec_timer h j
  · exact .inl (by rw [hsame])
  · exact .inl (by rw [hreload])
  · exact .inl (by rw [hctrl, writeControl_overflow])
  · exact .inr hadv
  · exact absurd hi hreset

end Writers

/-- A visit that leaves a flag true which was false counted a wrap (41_advance_engine.md R126, R127;
42_cascade.md R143). -/
theorem visited_wraps_of_flag_set {n : Nat} {prev : Bool} {t : Timer} (hset : flagAfterVisit n prev t = true)
    (hclear : t.overflow = false) : 0 < (visited n prev t).2 := by
  rw [← visited_overflow] at hset
  rcases t.cases_step with hd | hf | hc
  · rw [visited_disabled hd, hclear] at hset
    cases hset
  · obtain ⟨henable, hcascade⟩ := Timer.freeRunning_iff.1 hf
    rw [visited_free henable hcascade, freeRun_eq] at hset ⊢
    exact (freeWraps_pos t n).2 hset
  · obtain ⟨henable, hcascade⟩ := Timer.cascading_iff.1 hc
    cases prev with
    | false =>
      rw [visited_cascade_false henable hcascade, hclear] at hset
      cases hset
    | true =>
      rw [visited_cascade_true henable hcascade] at hset ⊢
      have hwrap : cascadeOverflow t = true := hset
      simp [hwrap]

/-- Settles O54: each field has one writer, and the ADVANCE that sets a flag counts a wrap. -/
theorem hiddenFieldWriters : Obligations.HiddenFieldWriters := by
  intro i s t j h hreset
  refine ⟨(exec_reload h hreset j).resolve_left, fun hne => ?_, (exec_cycles h hreset j).resolve_left,
    fun hset hclear => ?_, fun hclear hset => ?_⟩
  · refine (exec_control h hreset j).resolve_left ?_
    rintro ⟨hshift, hmask, hfrequency, hcascade, hinterrupt, henable⟩
    simp [hshift, hmask, hfrequency, hcascade, hinterrupt, henable] at hne
  · obtain ⟨n, hi, rfl⟩ := (exec_overflow h hreset j).resolve_left (by simp [hset, hclear])
    obtain ⟨w, hports, hw⟩ := afterAdvance_wraps n s
    rw [afterAdvance_overflow, Bool.and_eq_true] at hset
    refine ⟨n, w, hi, hports, ?_⟩
    rw [hw]
    exact visited_wraps_of_flag_set hset.1 hclear
  · obtain ⟨n, hi, -⟩ := (exec_overflow h hreset j).resolve_left (by simp [hset, hclear])
    exact ⟨n, hi⟩

/-! ### READ and WRITE as a whole (40_bus_interface.md R109) -/

/-- Counts of wraps are given by ADVANCE only (20_memory.md R63). -/
theorem exec_wraps {i : Instr} {s t : State} (h : exec i s = .next t) :
    t.ports.wraps = none ∨ ∃ n : Nat, i = .adv n := by
  obtain ⟨p, -, hwraps, rfl⟩ | ⟨k, r, -, rfl⟩ | ⟨k, v, -, rfl⟩ | ⟨n, hi, -⟩ | ⟨-, rfl⟩ := exec_next_writes h
  · exact .inl hwraps
  · exact .inl rfl
  · exact .inl rfl
  · exact .inr ⟨n, hi⟩
  · exact .inl rfl

/-- Settles O22: without ADVANCE and RESET, each of these has no writer left but the counter, which has the
enable edge. -/
theorem onlyEnableEdgeChangesCounter : Obligations.OnlyEnableEdgeChangesCounter := by
  intro i s t h hreset hadv
  refine ⟨?_, exec_inputs h, ?_, fun j => ⟨?_, ?_, fun hne => ?_⟩⟩
  · exact (exec_IF h).resolve_right fun ⟨n, hi, _⟩ => hadv n hi
  · exact (exec_wraps h).resolve_right fun ⟨n, hi⟩ => hadv n hi
  · exact (exec_cycles h hreset j).resolve_right fun ⟨n, hi, _⟩ => hadv n hi
  · exact (exec_overflow h hreset j).resolve_right fun ⟨n, hi, _⟩ => hadv n hi
  · obtain hedge | ⟨n, hi, -⟩ | ⟨n, hi, -⟩ | ⟨hi, -⟩ := counterChangesInFourCasesOnly.1 i s t j h hne
    · exact hedge
    · exact absurd hi (hadv n)
    · exact absurd hi (hadv n)
    · exact absurd hi hreset

/-- Settles O23: the operation between keeps what the READ packs. -/
theorem controlByteReadsBack : Obligations.ControlByteReadsBack := by
  intro s i v other hwf hctrl hreset
  have hwrite := exec_wrCtrl i v s
  obtain ⟨u, hother⟩ := exec_of_wellFormed hwf (s.setTimer i (writeControl (s.timer i) v)).quiet
  have hkept := (exec_control hother hreset i).resolve_right fun ⟨w, hi⟩ => hctrl w hi
  refine ⟨_, u, _, hwrite, hother, exec_rdCtrl i u, ?_⟩
  rw [State.answer_busRdata, hkept.controlByte, State.timer_quiet, State.timer_setTimer_self,
    controlByte_writeControl]

/-! ### Both bytes of `reload` (30_encoding.md R83) -/

/-- Of two WRITEs of one timer's record in a row, the second stands. -/
theorem setTimer_quiet_setTimer (s : State) (i : Fin 4) (t u : Timer) :
    ((s.setTimer i t).quiet.setTimer i u).quiet = (s.setTimer i u).quiet := by
  have htimers : setTimerAt (setTimerAt s.timers i t) i u = setTimerAt s.timers i u := Vector.set_set ..
  exact congrArg (fun v => ({ s with timers := v } : State).quiet) htimers

/-- Settles O24: each byte keeps the other half, so both together are `v`. -/
theorem reloadAssemblesInEitherOrder : Obligations.ReloadAssemblesInEitherOrder := by
  intro s i v written
  constructor
  · refine (execAll_cons (exec_wrRldl i (lowByte v) s) _).trans
      ((execAll_cons (exec_wrRldh i (highByte v) _) []).trans ?_)
    rw [State.timer_quiet, State.timer_setTimer_self, setTimer_quiet_setTimer, mergeHigh_mergeLow,
      highByte_append_lowByte]
    rfl
  · refine (execAll_cons (exec_wrRldh i (highByte v) s) _).trans
      ((execAll_cons (exec_wrRldl i (lowByte v) _) []).trans ?_)
    rw [State.timer_quiet, State.timer_setTimer_self, setTimer_quiet_setTimer, mergeLow_mergeHigh,
      highByte_append_lowByte]
    rfl

/-! ### `IF` is not read (10_state.md R32, 60_exceptions.md R164) -/

/-- ADVANCE from a state with another word in `IF`: nothing it does reads the word. -/
theorem afterAdvance_withIF (n : Nat) (s : State) (word : IrqWord) :
    afterAdvance n { s with IF := word } =
      { afterAdvance n s with IF := word ||| (afterAdvance n s).ports.irqSet } := by
  apply State.ext
  case timers =>
    refine timers_ext fun i => ?_
    exact (afterAdvance_timer n { s with IF := word } i).trans (afterAdvance_timer n s i).symm
  case IF => exact (afterAdvance_IF n { s with IF := word }).trans (by rw [afterAdvance_irqSet]; rfl)
  case ports =>
    apply Ports.ext
    case busRdata => rfl
    case irqSet => exact (afterAdvance_irqSet n { s with IF := word }).trans (afterAdvance_irqSet n s).symm
    case wraps =>
      refine congrArg some (Vector.ext fun k hk => ?_)
      exact (pass_wraps n { s with IF := word } ⟨k, hk⟩).trans (pass_wraps n s ⟨k, hk⟩).symm
  case inputs => rfl

/-- An operation that makes no request leaves the word it finds in `IF`. -/
theorem next_withIF_of_quiet {o : Host.Outcome State Fault Refusal} {t : State} {word : IrqWord}
    (hquiet : t.ports.irqSet = 0) (h : o = .next { t with IF := word }) :
    o = .next { t with IF := word ||| t.ports.irqSet } := by
  have hword : word ||| t.ports.irqSet = word := by rw [hquiet]; exact BitVec.or_zero
  rw [h, hword]

/-- Settles O40: ADVANCE by `afterAdvance_withIF`, and every other operation makes no request and passes the
word through. -/
theorem ifDoesNotInfluenceTheBlock : Obligations.IFDoesNotInfluenceTheBlock := by
  intro i s t word h
  obtain ⟨j, rfl, rfl⟩ | ⟨j, rfl, rfl⟩ | ⟨j, rfl, rfl⟩ | ⟨j, rfl, rfl⟩ | ⟨j, v, rfl, rfl⟩ | ⟨j, v, rfl, rfl⟩ |
    ⟨j, v, rfl, rfl⟩ | ⟨j, v, rfl, rfl⟩ | ⟨n, rfl, rfl⟩ | ⟨rfl, rfl⟩ := exec_next h
  · exact next_withIF_of_quiet rfl (exec_rdCntl j { s with IF := word })
  · exact next_withIF_of_quiet rfl (exec_rdCnth j { s with IF := word })
  · exact next_withIF_of_quiet rfl (exec_rdCtrl j { s with IF := word })
  · exact next_withIF_of_quiet rfl (exec_rdUnused j { s with IF := word })
  · exact next_withIF_of_quiet rfl (exec_wrRldl j v { s with IF := word })
  · exact next_withIF_of_quiet rfl (exec_wrRldh j v { s with IF := word })
  · exact next_withIF_of_quiet rfl (exec_wrCtrl j v { s with IF := word })
  · exact next_withIF_of_quiet rfl (exec_wrUnused j v { s with IF := word })
  · rw [exec_adv_nat, afterAdvance_withIF]
  · exact next_withIF_of_quiet rfl (exec_reset { s with IF := word })

/-! ### RESET (70_reset_and_hazards.md R180, R181) -/

/-- Settles O50: the reset record is the same from every state. -/
theorem resetZeroesEveryTimer : Obligations.ResetZeroesEveryTimer := by
  refine ⟨fun s => ⟨_, exec_reset s, rfl, rfl, rfl, rfl, rfl, fun i => ?_⟩, decode_reset_word⟩
  rw [timer_afterReset]
  rfl

end Sys2Proof.Machine
end

section
/-!
PROOFS of 41_advance_engine.md and 42_cascade.md: the leftover and the wraps of a free-running timer (R127 to
R130), the tick of a cascade timer (R143), and what ADVANCE leaves unchanged (10_state.md R37).
-/

namespace Sys2Proof.Machine

/-- Settles O30: under the invariant the leftover is the remainder of the division by 2^shift. -/
theorem noCycleIsLost : Obligations.NoCycleIsLost := by
  rintro s n i ⟨htimers, -⟩ henable hcascade
  have hinv := htimers i
  refine ⟨_, exec_adv_nat n s, ?_⟩
  rw [afterAdvance_timer_free henable hcascade]
  refine ⟨?_, Nat.and_le_right, ?_⟩
  · rw [freeStepped, available, hinv.and_mask, Nat.shiftRight_eq_div_pow, Nat.div_add_mod']
  · obtain ⟨-, hshift, hmask, -⟩ := hinv
    change (s.timer i).mask < _
    rw [hmask, maskOf_eq, ← hshift]
    exact Nat.sub_one_lt (Nat.two_pow_pos _).ne'

/-- Settles O34: the count is `freeWraps`. -/
theorem advanceCountsWraps : Obligations.AdvanceCountsWraps := by
  intro s n i henable hcascade ticks span period
  obtain ⟨w, hports, hw⟩ := afterAdvance_wraps n s
  refine ⟨spanToWrap_pos _, wrapPeriod_pos _, _, w, exec_adv_nat n s, hports, ?_⟩
  rw [hw, visited_wraps_free henable hcascade]
  rfl

/-- A cascade timer that finds its predecessor's flag true leaves its own flag by R143. -/
theorem flagAfterVisit_cascade_true {t : Timer} (henable : t.enable = true) (hcascade : t.cascade = true)
    (n : Nat) : flagAfterVisit n true t = cascadeOverflow t := by
  rw [← visited_overflow, visited_cascade_true henable hcascade]
  rfl

/-- Settles O32: the visit is the tick of R143, read below 0xFFFF and at 0xFFFF. -/
theorem cascadeTicksOnPredecessorOverflow : Obligations.CascadeTicksOnPredecessorOverflow := by
  intro s n j i hji henable hcascade hflag
  have hcascading := Timer.cascading_iff.2 ⟨henable, hcascade⟩
  have hcounter := afterAdvance_counter_cascade_true henable hcascade hflag
  have hoverflow := afterAdvance_overflow n s i
  have hirq := irqSet_bit n s i
  obtain ⟨w, hports, hw⟩ := afterAdvance_wraps n s
  have hwraps := hw i
  rw [hflag, flagAfterVisit_cascade_true henable hcascade] at hoverflow
  rw [← hw] at hirq
  rw [hflag, visited_cascade_true henable hcascade] at hwraps
  refine ⟨_, w, exec_adv_nat n s, hports, afterAdvance_overflow_of_successor_cascading hji hcascading n, ?_,
    fun hbelow => ?_, fun hmax => ?_⟩
  · rw [afterAdvance_cycles, Timer.not_free_of_cascading hcascading]
    rfl
  · have hnot : cascadeOverflow (s.timer i) = false := by
      rw [← Bool.not_eq_true, cascadeOverflow_iff]
      exact hbelow
    rw [hnot] at hoverflow hwraps
    rw [if_neg hbelow] at hcounter
    refine ⟨?_, hoverflow, hwraps, ?_⟩
    · rw [hcounter]
      bv_omega
    · rw [hirq, hwraps]
      simp
  · rw [cascadeOverflow_iff.2 hmax] at hoverflow hwraps
    rw [if_pos hmax] at hcounter
    refine ⟨hcounter, hoverflow, hwraps, ?_⟩
    rw [hirq, hwraps]
    simp

/-- A flag changes in an ADVANCE only if its timer is enabled, or a cascade successor consumes it (R143). -/
theorem afterAdvance_overflow_ne {n : Nat} {s : State} {i : Fin 4}
    (h : ((afterAdvance n s).timer i).overflow ≠ (s.timer i).overflow) :
    (s.timer i).enable = true ∨
      (successorCascades s i = true ∧ ((afterAdvance n s).timer i).overflow = false) := by
  cases henable : (s.timer i).enable with
  | true => exact .inl rfl
  | false =>
    have hkept : flagAfterVisit n (incomingFlag n s i) (s.timer i) = (s.timer i).overflow := by
      rw [← visited_overflow, visited_disabled henable]
    rw [afterAdvance_overflow, hkept] at h ⊢
    cases hsucc : successorCascades s i with
    | true => exact .inr ⟨rfl, Bool.and_false _⟩
    | false => exact absurd (by rw [hsucc, Bool.not_false, Bool.and_true]) h

/-- Settles O35: the frame of one ADVANCE, and for each of the three fields the condition under which it
changes. -/
theorem advanceFrame : Obligations.AdvanceFrame := by
  refine fun s n => ⟨_, exec_adv_nat n s, rfl, rfl, fun i => ⟨afterAdvance_frame n s i, ?_, ?_, ?_⟩⟩
  · exact afterAdvance_cycles_ne
  · exact fun hne => (afterAdvance_counter_ne hne).elim And.left And.left
  · exact afterAdvance_overflow_ne

end Sys2Proof.Machine
end
